-- ==== Sys2Proof/Word.lean ====
section
/-! DEFINITION. The value types of 00_scope.md rule R11. -/

namespace Sys2Proof

/-- A byte, an unsigned integer below 256 (R11). -/
abbrev Byte := BitVec 8

/-- A word, an unsigned integer below 65536 (R11). -/
abbrev Word := BitVec 16

/-- A virtual address, 16 bits; adding to it wraps modulo 65536 (R11, R13). -/
abbrev Va := BitVec 16

/-- A byte's offset in its bank, 14 bits (R11). -/
abbrev Offset := BitVec 14

/-- A palette index, 4 bits (R11). -/
abbrev ColIdx := BitVec 4

/-- What the memory pool holds: a byte at each index of the arena, `Phys(bank, offset)` (R12). -/
abbrev Memory := List Host.Cell

end Sys2Proof
end

