-- ==== Sys2Proof/Syntax.lean ====
section
/-! DEFINITION. The 20 interface operations and 2 pure functions of 30_encoding.md rule R72, one constructor for each
row of opcode_table.json in the table's order. Operands that the spec calls plain indexes are natural numbers, so that a
call outside an operation's domain can be written down and is refused by its meaning (00_scope.md rule R15). -/

namespace Sys2Proof

/-- The access policy of a slot: it decides only whether a write is stored or discarded (20_memory.md R53). -/
inductive Policy where
  | readOnly
  | readWrite
  deriving DecidableEq, Repr

/-- The two system variants, operands of RESET and POWER_ON (70_reset_and_hazards.md R190). -/
inductive Variant where
  | simple
  | banked
  deriving DecidableEq, Repr

/-- One interface call (R72). -/
inductive Instr where
  /-- TRANSLATE va (40_mmu.md R80). -/
  | translate (va : Va)
  /-- READ_BYTE va (R81). -/
  | readByte (va : Va)
  /-- WRITE_BYTE va, v (R82). -/
  | writeByte (va : Va) (v : Byte)
  /-- READ_WORD va (R83). -/
  | readWord (va : Va)
  /-- WRITE_WORD va, w (R84). -/
  | writeWord (va : Va) (w : Word)
  /-- REMAP s, b, p (R86). -/
  | remap (s b : Nat) (p : Policy)
  /-- RESET v (70_reset_and_hazards.md R190). -/
  | reset (v : Variant)
  /-- POWER_ON v (R192). -/
  | powerOn (v : Variant)
  /-- POWER_OFF (R193). -/
  | powerOff
  /-- BANK_WRITE v (41_banking.md R101). -/
  | bankWrite (v : Byte)
  /-- FETCH_OPCODE addr (42_cpu_bus_and_traps.md R111). -/
  | fetchOpcode (addr : Va)
  /-- CPU_READ addr (R115). -/
  | cpuRead (addr : Va)
  /-- CPU_WRITE addr, v (R116). -/
  | cpuWrite (addr : Va) (v : Byte)
  /-- PORT_IN port (R117). -/
  | portIn (port : Word)
  /-- PORT_OUT port, v (R118). -/
  | portOut (port : Word) (v : Byte)
  /-- RESUME_AT x (R119). -/
  | resumeAt (x : Va)
  /-- RENDER_SCANLINE index (43_display.md R137). -/
  | renderScanline (index : Nat)
  /-- SET_BORDER colour (R144). -/
  | setBorder (colour : Nat)
  /-- CREATE_HEADER_BLOCK t, kind, name, data_len, p1, p2 (44_tape_interface.md R163); `kind` is the rule's `type`. -/
  | createHeaderBlock (t : Va) (kind : Byte) (name : List Byte) (dataLen p1 p2 : Word)
  /-- WRITE_BLOCK t, data (R164). -/
  | writeBlock (t : Va) (data : List Byte)
  /-- LINE_OFFSET y, a pure function (43_display.md R130). -/
  | lineOffset (y : Nat)
  /-- ATTR_DECODE attr, flash, a pure function (R134). -/
  | attrDecode (attr : Byte) (flash : Bool)
  deriving DecidableEq, Repr

end Sys2Proof
end

