-- ==== Sys2Proof/Config.lean ====
section
/-! DEFINITION. The parameters of one instance of the block (00_scope.md rules R5 to R9) as plain data, what a trap
handler is (42_cpu_bus_and_traps.md R113), and the free values: constants with no body. -/

namespace Sys2Proof

/-- One thing a trap handler does while it runs (R113, R120): it calls an operation of the block, changes the CPU core's
registers through the core's register access, or changes its own and the host's state. `outOfRange` is a call whose operand
does not fit the width it has (60_exceptions.md R172), which `call` cannot hold. -/
inductive HandlerAction where
  | call (i : Instr)
  | setCpuRegs (regs : List Byte)
  | setHost (host : List Byte)
  | outOfRange
  deriving DecidableEq, Repr

/-- A number a handler program computes while it runs: a literal; what the program's last call answered (`answer`; of a
TRANSLATE result part 0 is the bank and part 1 the offset); whether that call was a TRANSLATE that answered ReadWrite
(`answerWritable`, 1 for yes and 0 for no, like a comparison: a policy has no number, 30_encoding.md R68; DESIGN CHOICE,
log 7); the CPU core's next-fetch address and registers; the bytes of the host's state; host input, which is a free value for
each `k`; and arithmetic on unsigned numbers of any size. A register or host byte that does not exist is 0, subtraction stops
at 0, division rounds down, division by 0 gives 0 and the remainder by 0 is the dividend (DESIGN CHOICE, log 7). Comparisons
give 1 or 0. -/
inductive HandlerValue where
  | lit (n : Nat)
  | answer (part : Nat)
  | answerWritable
  | pc
  | reg (k : HandlerValue)
  | regCount
  | host (k : HandlerValue)
  | hostCount
  | input (k : HandlerValue)
  | add (a b : HandlerValue)
  | sub (a b : HandlerValue)
  | mul (a b : HandlerValue)
  | div (a b : HandlerValue)
  | mod (a b : HandlerValue)
  | xor (a b : HandlerValue)
  | less (a b : HandlerValue)
  | equal (a b : HandlerValue)
  deriving DecidableEq, Repr

/-- A policy a handler program passes to REMAP: by name, or chosen by a value, `q` when it is 0. No number stands for a policy
(30_encoding.md R68). -/
inductive HandlerPolicy where
  | named (p : Policy)
  | ifElse (c : HandlerValue) (p q : HandlerPolicy)
  deriving DecidableEq, Repr

/-- A byte sequence a handler program passes to a tape entry point: literal, or the bytes of the host's state from `start`
on, `count` of them or as many as exist there: a slice that reaches past the end of the host's state is the shorter
sequence and is not filled up (DESIGN CHOICE, log 7). -/
inductive HandlerBytes where
  | lit (bytes : List Byte)
  | host (start count : HandlerValue)
  deriving DecidableEq, Repr

/-- A call with computed operands, one constructor for each operation R113 lets a handler call. -/
inductive HandlerCall where
  | translate (va : HandlerValue)
  | readByte (va : HandlerValue)
  | writeByte (va v : HandlerValue)
  | readWord (va : HandlerValue)
  | writeWord (va w : HandlerValue)
  | remap (s b : HandlerValue) (p : HandlerPolicy)
  | resumeAt (x : HandlerValue)
  | createHeaderBlock (t kind : HandlerValue) (name : HandlerBytes) (dataLen p1 p2 : HandlerValue)
  | writeBlock (t : HandlerValue) (data : HandlerBytes)
  deriving DecidableEq, Repr

/-- A handler that reads state and acts on what it read (R113). `setReg` and `setHost` store one byte, `pushHost` adds one
at the end; a store to a byte that does not exist does nothing and a store of a number above 255 is refused (DESIGN CHOICE,
log 7); `ifElse` takes `q` when its value is 0; `times` runs its body as often as its value says when it is reached. Every
program ends, as R113 asks. -/
inductive HandlerCode where
  | skip
  | act (a : HandlerAction)
  | call (c : HandlerCall)
  | setReg (k v : HandlerValue)
  | setHost (k v : HandlerValue)
  | pushHost (v : HandlerValue)
  | seq (p q : HandlerCode)
  | ifElse (c : HandlerValue) (p q : HandlerCode)
  | times (n : HandlerValue) (p : HandlerCode)
  deriving DecidableEq, Repr

/-- The handler a trap entry names (R113): host code that always returns, so one run of it takes a finite list of actions.
`script` is a handler whose actions are the same at every run; `program` computes them from the calls it makes, the CPU
core's and the host's state and host input; `routine` is host code known by its name only, whose actions at each run are the
free value `Config.routineActions`. -/
inductive Handler where
  | script (actions : List HandlerAction)
  | program (code : HandlerCode)
  | routine (name : Nat)
  deriving DecidableEq, Repr

/-- A trap table entry (30_encoding.md R67). -/
structure TrapEntry where
  address       : Va
  handler       : Handler
  owningRomBank : Nat
  deriving DecidableEq, Repr

/-- The OPEN parameters of rules R5 to R9. `altSwapped` says which of the banks NUM_BANKS - 4 and NUM_BANKS - 3 is
ROM_ALT0 (false: NUM_BANKS - 4). `bankPorts` lists the ports for which IsBankPort holds; every predicate on 16-bit ports
is such a list. `romImage` lists the bytes the host loads into the ROM banks, by arena index. -/
structure Config where
  numBanks        : Nat
  altSwapped      : Bool
  slot1Bank       : Nat
  slot2Bank       : Nat
  slot3ResetBank  : Nat
  displayBank     : Nat
  attrBase        : Nat
  height          : Nat
  topBorder       : Nat
  leftBorder      : Nat
  rightBorder     : Nat
  romImage        : Memory
  trapTable       : List TrapEntry
  trapFilterByRom : Bool
  bankPorts       : List Word
  deriving DecidableEq, Repr

/-- The constraints rules R5 to R8 and R67 put on the parameters. -/
abbrev Config.Ok (c : Config) : Prop :=
  12 ≤ c.numBanks ∧
  c.slot1Bank < c.numBanks - 4 ∧ c.slot2Bank < c.numBanks - 4 ∧ c.slot3ResetBank < c.numBanks - 4 ∧
  c.slot1Bank ≠ c.slot2Bank ∧
  c.displayBank < c.numBanks ∧
  6144 ≤ c.attrBase ∧ c.attrBase + 768 ≤ 16384 ∧
  1 ≤ c.topBorder ∧ c.height = 192 + 2 * c.topBorder ∧
  ∀ e ∈ c.trapTable, e.owningRomBank < c.numBanks

/-- The defaults of rules R5 to R9 (92_eei_decisions.md D1 to D6, D15, D21), with a blank ROM image and an empty trap
table, for which the spec has no default (DESIGN CHOICE, log 5 and log 6). -/
def Config.default : Config where
  numBanks        := 12
  altSwapped      := false
  slot1Bank       := 5
  slot2Bank       := 2
  slot3ResetBank  := 0
  displayBank     := 5
  attrBase        := 6144
  height          := 240
  topBorder       := 24
  leftBorder      := 64
  rightBorder     := 64
  romImage        := []
  trapTable       := []
  trapFilterByRom := false
  bankPorts       := [0x7FFD#16]

/-- The border colour the `draw`-th free value gives (93_implementation_defined.md U9). Log 9. -/
opaque Config.freeBorder (draw : Nat) : ColIdx

/-- PortInOracle of 42_cpu_bus_and_traps.md R117: what the environment answers to PORT_IN, under no law. Log 10. -/
opaque Config.portInOracle (draw : Nat) (port : Word) (host : List Byte) : Byte

/-- What the host gives a handler program that asks for its input `k` (42_cpu_bus_and_traps.md R113: host I/O). Log 7. -/
opaque Config.hostInput (draw k : Nat) : Nat

/-- PALETTE of rule R8: the colour shown for an index, uninterpreted (43_display.md R145). Log 18. -/
opaque Config.palette (index : ColIdx) : Nat

end Sys2Proof
end

