-- ==== Sys2Proof/Machine/Operands.lean ====
section
/-! DEFINITION. The operand layouts of 30_encoding.md sections 2 and 3: each field of each bit-encoded operand, and the
assembly of operands from their fields. -/

namespace Sys2Proof.Machine

/-- Slot field of a virtual address, bits 15:14 (R61). -/
def vaSlot (va : Va) : BitVec 2 := va.extractLsb' 14 2

/-- Offset field of a virtual address, bits 13:0 (R61). -/
def vaOffset (va : Va) : Offset := va.extractLsb' 0 14

/-- The virtual address with these fields (R61). -/
def vaOf (slot : BitVec 2) (offset : Offset) : Va := slot ++ offset

/-- Field `ram` of a banking byte, bits 2:0 (R62). -/
def bankRam (v : Byte) : BitVec 3 := v.extractLsb' 0 3

/-- Field `vid` of a banking byte, bit 3 (R62). -/
def bankVid (v : Byte) : Bool := v.getLsbD 3

/-- Field `rom` of a banking byte, bit 4 (R62). -/
def bankRom (v : Byte) : Bool := v.getLsbD 4

/-- Field `lock` of a banking byte, bit 5 (R62). -/
def bankLock (v : Byte) : Bool := v.getLsbD 5

/-- The banking byte with these fields; `ignored` is bits 7:6 (R62, R73). -/
def bankingByte (ignored : BitVec 2) (lock rom vid : Bool) (ram : BitVec 3) : Byte :=
  ignored ++ BitVec.ofBool lock ++ BitVec.ofBool rom ++ BitVec.ofBool vid ++ ram

/-- Field `ink` of an attribute byte, bits 2:0 (R63). -/
def attrInk (a : Byte) : BitVec 3 := a.extractLsb' 0 3

/-- Field `paper` of an attribute byte, bits 5:3 (R63; PRESUMED, log 19). -/
def attrPaper (a : Byte) : BitVec 3 := a.extractLsb' 3 3

/-- Field `bright` of an attribute byte, bit 6 (R63; DEDUCED, log 19). -/
def attrBright (a : Byte) : Bool := a.getLsbD 6

/-- Field `flash` of an attribute byte, bit 7 (R63; PRESUMED, log 19). -/
def attrFlash (a : Byte) : Bool := a.getLsbD 7

/-- The attribute byte with these fields (R63). -/
def attrByteOf (flash bright : Bool) (paper ink : BitVec 3) : Byte :=
  BitVec.ofBool flash ++ BitVec.ofBool bright ++ paper ++ ink

/-- A palette index: a 3-bit colour, plus 8 when bright (R70, R134). -/
def paletteIndex (bright : Bool) (colour : BitVec 3) : ColIdx :=
  colour.setWidth 4 + (if bright then 8#4 else 0#4)

/-- Fields of an active scanline number (R65): segment y[7:6], cell y[5:3], line y[2:0]. -/
def lineSegment (y : Nat) : Nat := y / 64

def lineCell (y : Nat) : Nat := (y % 64) / 8

def lineLine (y : Nat) : Nat := (y % 64) % 8

/-- LineOffset (43_display.md R130): the non-linear interleave. -/
def lineOffset (y : Nat) : Nat := lineSegment y * 2048 + lineCell y * 32 + lineLine y * 256

/-- Offset, in the display bank, of the attribute byte of line `y`, column `c` (R66, R133). -/
def attrOffset (cfg : Config) (y c : Nat) : Nat := cfg.attrBase + (y / 8) * 32 + c

/-- The bytes of a word: w[7:0] and w[15:8] (R69). -/
def lowByte (w : Word) : Byte := w.extractLsb' 0 8

def highByte (w : Word) : Byte := w.extractLsb' 8 8

/-- Word assembly, hi ++ lo (R69). -/
def wordOf (hi lo : Byte) : Word := hi ++ lo

/-- A byte's index in the arena, bank ++ offset (R71). -/
def phys (bank offset : Nat) : Nat := bank * 16384 + offset

/-- Arena index of byte `q` of page `p` (00_scope.md R12): pages are 8192 bytes, two to a bank. -/
def pagePhys (p q : Nat) : Nat := p * 8192 + q

/-- The 17-byte header payload (44_tape_interface.md R161): type, the name padded on the right with 0x20 to 10 bytes, and
three words, low byte first. -/
def headerPayload (kind : Byte) (name : List Byte) (dataLen p1 p2 : Word) : List Byte :=
  kind :: (name ++ List.replicate (10 - name.length) 0x20#8) ++
    [lowByte dataLen, highByte dataLen, lowByte p1, highByte p1, lowByte p2, highByte p2]

end Sys2Proof.Machine
end

