-- ==== Sys2Proof/WellFormed.lean ====
section
/-! DEFINITION. The operand domain of each operation (00_scope.md R15): the calls a model must not answer with a state
are the ones this check refuses. -/

namespace Sys2Proof

/-- The operands of `i` lie in the operation's domain under the parameters `c`. -/
def Instr.wellFormed (c : Config) : Instr → Bool
  | .translate _ => true
  | .readByte _ => true
  | .writeByte _ _ => true
  | .readWord _ => true
  | .writeWord _ _ => true
  | .remap s b _ => decide (s < 4) && decide (b < c.numBanks)
  | .reset _ => true
  | .powerOn _ => true
  | .powerOff => true
  | .bankWrite _ => true
  | .fetchOpcode _ => true
  | .cpuRead _ => true
  | .cpuWrite _ _ => true
  | .portIn _ => true
  | .portOut _ _ => true
  | .resumeAt _ => true
  | .renderScanline index => decide (index < c.height)
  | .setBorder colour => decide (colour < 16)
  | .createHeaderBlock _ _ name _ _ _ => decide (name.length ≤ 10)
  | .writeBlock _ _ => true
  | .lineOffset y => decide (y < 192)
  | .attrDecode _ _ => true

end Sys2Proof
end

