-- ==== Sys2Proof/Decode.lean ====
section
/-! DEFINITION. The call record: the form in which a call waits in the machine's queue. The spec gives calls no bit pattern
(30_encoding.md R60: an operation is selected by which interface call is made), so the record's first entry, the selector,
is the model's own (DESIGN CHOICE, log 2): the call's place in the list of rule R72, counted from 0. The entries after it
are the operands as the numbers the spec gives them, each checked against the width of rule R11; a name or a byte sequence
comes last and takes the rest of the record. -/

namespace Sys2Proof

/-- A call record: a selector and operands. -/
abbrev Record := List Nat

/-- Why a record is no call. -/
inductive DecodeError where
  /-- The record is empty, its selector names no call, or it has too few or too many operands. -/
  | noSuchCall
  /-- An operand does not fit the width the spec gives it. -/
  | operandTooWide
  deriving DecidableEq, Repr

/-- An operand of `w` bits. -/
def readBits (w n : Nat) : Except DecodeError (BitVec w) :=
  if n < 2 ^ w then .ok (BitVec.ofNat w n) else .error .operandTooWide

/-- A sequence of bytes. -/
def readByteList : List Nat → Except DecodeError (List Byte)
  | [] => .ok []
  | n :: ns =>
    match readBits 8 n, readByteList ns with
    | .ok b, .ok bs => .ok (b :: bs)
    | .error e, _ => .error e
    | _, .error e => .error e

/-- A policy: 0 ReadOnly, 1 ReadWrite (no numeric encoding in the spec, R68; log 2). -/
def readPolicy : Nat → Except DecodeError Policy
  | 0 => .ok .readOnly
  | 1 => .ok .readWrite
  | _ => .error .operandTooWide

/-- A variant: 0 simple, 1 banked (no numeric encoding in the spec, R68; log 2). -/
def readVariant : Nat → Except DecodeError Variant
  | 0 => .ok .simple
  | 1 => .ok .banked
  | _ => .error .operandTooWide

/-- A one-bit operand. -/
def readBool : Nat → Except DecodeError Bool
  | 0 => .ok false
  | 1 => .ok true
  | _ => .error .operandTooWide

/-- The call whose selector is `sel`, with these operands. -/
def decodeCall (sel : Nat) (ops : List Nat) : Except DecodeError Instr :=
  match sel, ops with
  | 0, [va] => do return .translate (← readBits 16 va)
  | 1, [va] => do return .readByte (← readBits 16 va)
  | 2, [va, v] => do return .writeByte (← readBits 16 va) (← readBits 8 v)
  | 3, [va] => do return .readWord (← readBits 16 va)
  | 4, [va, w] => do return .writeWord (← readBits 16 va) (← readBits 16 w)
  | 5, [s, b, p] => do return .remap s b (← readPolicy p)
  | 6, [v] => do return .reset (← readVariant v)
  | 7, [v] => do return .powerOn (← readVariant v)
  | 8, [] => return .powerOff
  | 9, [v] => do return .bankWrite (← readBits 8 v)
  | 10, [a] => do return .fetchOpcode (← readBits 16 a)
  | 11, [a] => do return .cpuRead (← readBits 16 a)
  | 12, [a, v] => do return .cpuWrite (← readBits 16 a) (← readBits 8 v)
  | 13, [p] => do return .portIn (← readBits 16 p)
  | 14, [p, v] => do return .portOut (← readBits 16 p) (← readBits 8 v)
  | 15, [x] => do return .resumeAt (← readBits 16 x)
  | 16, [index] => return .renderScanline index
  | 17, [colour] => return .setBorder colour
  | 18, t :: kind :: len :: p1 :: p2 :: name => do
      return .createHeaderBlock (← readBits 16 t) (← readBits 8 kind) (← readByteList name)
        (← readBits 16 len) (← readBits 16 p1) (← readBits 16 p2)
  | 19, t :: data => do return .writeBlock (← readBits 16 t) (← readByteList data)
  | 20, [y] => return .lineOffset y
  | 21, [a, f] => do return .attrDecode (← readBits 8 a) (← readBool f)
  | _, _ => .error .noSuchCall

/-- The call a record stands for: total, rejecting by name. -/
def decode : Record → Except DecodeError Instr
  | [] => .error .noSuchCall
  | sel :: ops => decodeCall sel ops

/-- The selector of a call: its place in the list of rule R72. -/
def selector : Instr → Nat
  | .translate _ => 0
  | .readByte _ => 1
  | .writeByte _ _ => 2
  | .readWord _ => 3
  | .writeWord _ _ => 4
  | .remap _ _ _ => 5
  | .reset _ => 6
  | .powerOn _ => 7
  | .powerOff => 8
  | .bankWrite _ => 9
  | .fetchOpcode _ => 10
  | .cpuRead _ => 11
  | .cpuWrite _ _ => 12
  | .portIn _ => 13
  | .portOut _ _ => 14
  | .resumeAt _ => 15
  | .renderScanline _ => 16
  | .setBorder _ => 17
  | .createHeaderBlock _ _ _ _ _ _ => 18
  | .writeBlock _ _ => 19
  | .lineOffset _ => 20
  | .attrDecode _ _ => 21

/-- The number of a policy in a record. -/
def policyCode : Policy → Nat
  | .readOnly => 0
  | .readWrite => 1

/-- The number of a variant in a record. -/
def variantCode : Variant → Nat
  | .simple => 0
  | .banked => 1

/-- The numbers of a byte sequence in a record. -/
def byteCodes (bs : List Byte) : List Nat := bs.map BitVec.toNat

/-- The operands of a call as a record holds them. -/
def encodeOperands : Instr → List Nat
  | .translate va => [va.toNat]
  | .readByte va => [va.toNat]
  | .writeByte va v => [va.toNat, v.toNat]
  | .readWord va => [va.toNat]
  | .writeWord va w => [va.toNat, w.toNat]
  | .remap s b p => [s, b, policyCode p]
  | .reset v => [variantCode v]
  | .powerOn v => [variantCode v]
  | .powerOff => []
  | .bankWrite v => [v.toNat]
  | .fetchOpcode a => [a.toNat]
  | .cpuRead a => [a.toNat]
  | .cpuWrite a v => [a.toNat, v.toNat]
  | .portIn p => [p.toNat]
  | .portOut p v => [p.toNat, v.toNat]
  | .resumeAt x => [x.toNat]
  | .renderScanline index => [index]
  | .setBorder colour => [colour]
  | .createHeaderBlock t kind name len p1 p2 =>
      t.toNat :: kind.toNat :: len.toNat :: p1.toNat :: p2.toNat :: byteCodes name
  | .writeBlock t data => t.toNat :: byteCodes data
  | .lineOffset y => [y]
  | .attrDecode a f => [a.toNat, f.toNat]

/-- The record of a call. -/
def encode (i : Instr) : Record := selector i :: encodeOperands i

/-- The record a word of opcode_table.json stands for. The table's words are operand layouts that select no operation
(R60); the one row with decoded bits is PORT_OUT, whose 16 bits are the banking port's address. Its data byte has no bits in
the table and is 0. Every other word stands for no call: the empty record, which `decode` rejects. -/
def tableRecord (nbits w : Nat) : Record :=
  if nbits = 16 ∧ w = 0x7FFD then [14, w, 0] else []

/-- The call the decoder reads from a word of opcode_table.json (log 2). -/
def decodeTableWord (nbits w : Nat) : Option Instr :=
  match decode (tableRecord nbits w) with
  | .ok i => some i
  | .error _ => none

end Sys2Proof
end

