-- ==== Sys2Proof/Machine/State.lean ====
section
/-! DEFINITION. The state of one instance (10_state.md R20 and R38) with the model's own fields, the reasons a step can
stop, and the state after reset. -/

namespace Sys2Proof.Machine

/-- A slot register (R22). -/
structure Slot where
  bank   : Nat
  policy : Policy
  deriving DecidableEq, Repr

/-- The four slot registers (R22): the block's register file. -/
structure SlotMap where
  s0 : Slot
  s1 : Slot
  s2 : Slot
  s3 : Slot
  deriving DecidableEq, Repr

/-- The CPU core's state as far as the block's side touches it (R38): the next-fetch address, and its registers as
uninterpreted bytes, which only trap handlers change (42_cpu_bus_and_traps.md R120). -/
structure CpuState where
  pc   : Va
  regs : List Byte
  deriving DecidableEq, Repr

/-- What a call returns to its caller (30_encoding.md R72). The model's own: exec answers a state only. Log 12. -/
inductive Result where
  /-- The call returns nothing. -/
  | unit
  /-- READ_BYTE, FETCH_OPCODE, CPU_READ, PORT_IN. -/
  | byte (v : Byte)
  /-- READ_WORD. -/
  | word (w : Word)
  /-- TRANSLATE. -/
  | location (bank : Nat) (offset : Offset) (policy : Policy)
  /-- REMAP: the bank the slot held before. -/
  | bank (b : Nat)
  /-- RENDER_SCANLINE while powered. -/
  | row (entries : List ColIdx)
  /-- RENDER_SCANLINE while not powered: nothing is emitted (43_display.md R140). -/
  | noRow
  /-- LINE_OFFSET. -/
  | offset (o : Nat)
  /-- ATTR_DECODE. -/
  | colours (ink paper : ColIdx)
  deriving DecidableEq, Repr

/-- The machine. `pool` to `powered` is the tuple of R20; `cpu` and `host` are the components of R38; `cfg` holds the
parameters, which no operation writes (log 3); `booted` says that a POWER_ON has happened (70_reset_and_hazards.md R198;
log 13); `pending`, `result` and `draws` are the model's own (logs 1, 12 and 11). -/
structure State where
  cfg            : Config
  pool           : Memory
  slots          : SlotMap
  bankingEnabled : Bool
  currentRom     : Nat
  videoSelect    : Bool
  flash          : Bool
  frameCount     : Nat
  borderColor    : ColIdx
  powered        : Bool
  cpu            : CpuState
  host           : List Byte
  booted         : Bool
  pending        : List Record
  result         : Result
  draws          : Nat
  deriving DecidableEq, Repr

/-- Why the machine stops. The block itself raises no exception (60_exceptions.md R170). -/
inductive Fault where
  /-- Raised by every access to a pool byte of a bank that does not exist (20_memory.md R41: bank < NUM_BANKS): only when a
  slot register or DISPLAY_BANK names such a bank, which no state that keeps the invariant does. Safe. Log 14. -/
  | outsidePool
  deriving DecidableEq, Repr

/-- Why a call gets no next state: it is outside the domain the spec defines (00_scope.md R15, 60_exceptions.md R172). All
are safe. -/
inductive Refusal where
  /-- An instruction with no meaning yet: none. -/
  | notModelled (mnemonic : String)
  /-- Raised by the step on a call record that is no call (log 2). Safe. -/
  | undecodable (e : DecodeError)
  /-- Raised by every operation but POWER_ON before the first POWER_ON (70_reset_and_hazards.md R198). Safe. -/
  | beforePowerOn
  /-- Raised by REMAP with a slot above 3 (40_mmu.md R86). Safe. -/
  | slotOutOfRange
  /-- Raised by REMAP with a bank not below NUM_BANKS (R86). Safe. -/
  | bankOutOfRange
  /-- Raised by RENDER_SCANLINE with an index not below HEIGHT (43_display.md R137). Safe. -/
  | scanlineOutOfRange
  /-- Raised by SET_BORDER with a colour not below 16 (R144). Safe. -/
  | colourOutOfRange
  /-- Raised by LINE_OFFSET with y not below 192 (R130). Safe. -/
  | lineOutOfRange
  /-- Raised by CREATE_HEADER_BLOCK with a name longer than 10 bytes (44_tape_interface.md R163). Safe. -/
  | nameTooLong
  /-- Raised by FETCH_OPCODE when a handler calls an operation outside the list of 42_cpu_bus_and_traps.md R113. Safe. -/
  | handlerCall
  /-- Raised by FETCH_OPCODE when a handler calls an operation with an operand that does not fit its width (60_exceptions.md
  R172), or a handler program stores a number above 255 in a byte (log 7). Safe. -/
  | operandOutOfRange
  deriving DecidableEq, Repr

/-- What an unlisted pool byte reads as: 0, the value RESET gives every RAM byte (70_reset_and_hazards.md R190). A ROM byte
that is not listed is a byte 0 of the ROM image. Log 5. -/
def Memory.unlisted (_ : Nat) : Byte := 0#8

/-- The canonical form of the pool: addresses strictly rising, no entry equal to what an unlisted address reads as. -/
abbrev Memory.Wf (m : Memory) : Prop :=
  m.Pairwise (fun c d => c.1 < d.1) ∧ ∀ c ∈ m, c.2 ≠ Memory.unlisted c.1

/-- The machine after `POWER_ON banked` under the default parameters (70_reset_and_hazards.md R192, R198: every run starts
there), with no call waiting. The border colour is a free value (93_implementation_defined.md U9, log 9). The banked
variant is log 4; the CPU core's and the host's components are log 8. -/
def State.reset : State where
  cfg            := Config.default
  pool           := []
  slots          := { s0 := ⟨8, .readOnly⟩, s1 := ⟨5, .readWrite⟩, s2 := ⟨2, .readWrite⟩, s3 := ⟨0, .readWrite⟩ }
  bankingEnabled := true
  currentRom     := 8
  videoSelect    := false
  flash          := false
  frameCount     := 0
  borderColor    := Config.freeBorder 0
  powered        := true
  cpu            := { pc := 0#16, regs := [] }
  host           := []
  booted         := true
  pending        := []
  result         := .unit
  draws          := 1

end Sys2Proof.Machine

namespace Sys2Proof

/-- What the host routine `name` does when it is run in the state `s` (42_cpu_bus_and_traps.md R113: its effect may depend
on the machine, the CPU core, its own state and the host). A free value; log 7. -/
opaque Config.routineActions (name : Nat) (s : Machine.State) : List HandlerAction

end Sys2Proof
end

