-- ==== Sys2Proof/Machine/Ops.lean ====
section
/-! DEFINITION. The named operations over the parameters, the pool and the slot registers, the two MMU access paths, and
the taking of a trap (60_exceptions.md R173 to R177), which is the block's only trap mechanism. -/

namespace Sys2Proof.Machine

/-! ### Bank partition (00_scope.md R6) -/

def numRamBanks (c : Config) : Nat := c.numBanks - 4

def romAlt0 (c : Config) : Nat := if c.altSwapped then c.numBanks - 3 else c.numBanks - 4

def romAlt1 (c : Config) : Nat := if c.altSwapped then c.numBanks - 4 else c.numBanks - 3

def romPrimary (c : Config) : Nat := c.numBanks - 2

def romAux (c : Config) : Nat := c.numBanks - 1

/-- The first arena index of the ROM banks: RAM banks are the low indices. -/
def romStart (c : Config) : Nat := numRamBanks c * 16384

/-- IsBankPort (R9). -/
def isBankPort (c : Config) (port : Word) : Bool := c.bankPorts.contains port

/-- WIDTH, output entries of a row (R8). -/
def rowWidth (c : Config) : Nat := c.leftBorder + 512 + c.rightBorder

/-! ### The pool (10_state.md R21): pure storage -/

/-- The byte at an arena index. -/
def Memory.read : Memory → Nat → Byte
  | [], a => Memory.unlisted a
  | (b, v) :: m, a => if a = b then v else Memory.read m a

/-- The pool without an entry for `a`. -/
def Memory.erase (m : Memory) (a : Nat) : Memory := m.filter (fun c => c.1 != a)

/-- The pool with an entry put before the first entry of a higher index. -/
def Memory.insert (a : Nat) (v : Byte) : Memory → Memory
  | [] => [(a, v)]
  | (b, w) :: m => if a < b then (a, v) :: (b, w) :: m else (b, w) :: Memory.insert a v m

/-- Store one byte; storing what an unlisted index reads as removes the entry. -/
def Memory.write (m : Memory) (a : Nat) (v : Byte) : Memory :=
  if v = Memory.unlisted a then Memory.erase m a else Memory.insert a v (Memory.erase m a)

/-- Zero every byte below arena index `top` (RESET zeroes the RAM banks, 70_reset_and_hazards.md R190). -/
def Memory.zeroBelow (m : Memory) (top : Nat) : Memory := m.filter (fun c => decide (top ≤ c.1))

/-- Pool[b][o], read directly (00_scope.md R14, `PoolRead`). -/
def State.poolByte (s : State) (b o : Nat) : Byte := Memory.read s.pool (phys b o)

/-- Page[p][q], the page view of the pool (R12, R21): used by no operation. -/
def State.pageByte (s : State) (p q : Nat) : Byte := Memory.read s.pool (pagePhys p q)

/-! ### Named updates of the state -/

/-- The state with the call's result recorded (log 12). -/
def State.returning (s : State) (r : Result) : State := { s with result := r }

/-- The state with another pool. -/
def State.withPool (s : State) (m : Memory) : State := { s with pool := m }

/-- The state after one more free value has been taken (log 11). -/
def State.drawn (s : State) : State := { s with draws := s.draws + 1 }

/-! ### Slot registers (10_state.md R22) -/

/-- `slot[i]` for a 2-bit slot field. -/
def SlotMap.get (m : SlotMap) (i : BitVec 2) : Slot :=
  if i = 0#2 then m.s0 else if i = 1#2 then m.s1 else if i = 2#2 then m.s2 else m.s3

/-- `slot[i] <- x` for a 2-bit slot field. -/
def SlotMap.set (m : SlotMap) (i : BitVec 2) (x : Slot) : SlotMap :=
  if i = 0#2 then { m with s0 := x } else if i = 1#2 then { m with s1 := x }
  else if i = 2#2 then { m with s2 := x } else { m with s3 := x }

/-- The slot register an address falls in (R61). -/
def State.slotOf (s : State) (va : Va) : Slot := s.slots.get (vaSlot va)

/-- The arena index an address translates to (20_memory.md R52). -/
def State.physOf (s : State) (va : Va) : Nat := phys (s.slotOf va).bank (vaOffset va).toNat

/-! ### The domain of a call -/

/-- Every operation but POWER_ON is refused before the first POWER_ON (70_reset_and_hazards.md R198). -/
def whenBooted (s : State) (k : Host.Outcome State Fault Refusal) : Host.Outcome State Fault Refusal :=
  if s.booted then k else .refused .beforePowerOn

/-- A pool access: bank `b` must exist (20_memory.md R41). -/
def checkBank (s : State) (b : Nat) : Except Fault Unit :=
  if b < s.cfg.numBanks then .ok () else .error .outsidePool

/-- The next state of an operation that returns nothing. -/
def answerState : Except Fault State → Host.Outcome State Fault Refusal
  | .ok s => .next (s.returning .unit)
  | .error f => .fault f

/-! ### The MMU operations (40_mmu.md) -/

/-- TRANSLATE (R80). -/
def translateVa (s : State) (va : Va) : Nat × Offset × Policy :=
  ((s.slotOf va).bank, vaOffset va, (s.slotOf va).policy)

/-- READ_BYTE (R81): translate and dereference; the policy is not consulted. -/
def readByte (s : State) (va : Va) : Except Fault Byte := do
  let (b, o, _) := translateVa s va
  checkBank s b
  return s.poolByte b o.toNat

/-- WRITE_BYTE (R82): a write through a ReadOnly slot is discarded. -/
def writeByte (s : State) (va : Va) (v : Byte) : Except Fault State := do
  let (b, o, p) := translateVa s va
  match p with
  | .readOnly => return s
  | .readWrite =>
    checkBank s b
    return s.withPool (Memory.write s.pool (phys b o.toNat) v)

/-- READ_WORD (R83): two byte reads at va and va + 1, each translated on its own, low byte first. -/
def readWord (s : State) (va : Va) : Except Fault Word := do
  let lo ← readByte s va
  let hi ← readByte s (va + 1#16)
  return wordOf hi lo

/-- WRITE_WORD (R84): two byte writes at va and va + 1, low byte first. -/
def writeWord (s : State) (va : Va) (w : Word) : Except Fault State := do
  let s ← writeByte s va (lowByte w)
  writeByte s (va + 1#16) (highByte w)

/-- WRITE_BLOCK (44_tape_interface.md R164): byte writes at ascending addresses modulo 65536. -/
def writeBlock (s : State) (t : Va) : List Byte → Except Fault State
  | [] => return s
  | v :: vs => do
    let s ← writeByte s t v
    writeBlock s (t + 1#16) vs

/-- Byte `i` of a header's name field (R161): the name, then spaces. -/
def nameByte (name : List Byte) (i : Nat) : Byte := name.getD i 0x20#8

/-- CREATE_HEADER_BLOCK (R163), the name at most 10 bytes. -/
def createHeader (s : State) (t : Va) (kind : Byte) (name : List Byte) (dataLen p1 p2 : Word) :
    Except Fault State := do
  let s ← writeByte s t kind
  let s ← writeBlock s (t + 1#16) ((List.range 10).map (nameByte name))
  let s ← writeWord s (t + 11#16) dataLen
  let s ← writeWord s (t + 13#16) p1
  writeWord s (t + 15#16) p2

/-- REMAP (40_mmu.md R86) on operands in range: the state after, and the bank the slot held before. -/
def remap (s : State) (i : BitVec 2) (b : Nat) (p : Policy) : State × Nat :=
  ({ s with slots := s.slots.set i ⟨b, p⟩ }, (s.slots.get i).bank)

/-! ### What a caller gets back -/

/-- A byte read at `va`, or the fault of the access. -/
def answerByte (s : State) (va : Va) : Host.Outcome State Fault Refusal :=
  match readByte s va with
  | .ok v => .next (s.returning (.byte v))
  | .error f => .fault f

def answerWord (s : State) (va : Va) : Host.Outcome State Fault Refusal :=
  match readWord s va with
  | .ok w => .next (s.returning (.word w))
  | .error f => .fault f

def answerTranslate (s : State) (va : Va) : Host.Outcome State Fault Refusal :=
  let (b, o, p) := translateVa s va
  .next (s.returning (.location b o p))

/-- REMAP with its range checks (R86). -/
def answerRemap (s : State) (i b : Nat) (p : Policy) : Host.Outcome State Fault Refusal :=
  if i < 4 then
    if b < s.cfg.numBanks then
      let (t, prev) := remap s (BitVec.ofNat 2 i) b p
      .next (t.returning (.bank prev))
    else .refused .bankOutOfRange
  else .refused .slotOutOfRange

/-- CREATE_HEADER_BLOCK with its length check (44_tape_interface.md R163). -/
def answerHeader (s : State) (t : Va) (kind : Byte) (name : List Byte) (dataLen p1 p2 : Word) :
    Host.Outcome State Fault Refusal :=
  if name.length ≤ 10 then answerState (createHeader s t kind name dataLen p1 p2)
  else .refused .nameTooLong

/-- RESUME_AT (42_cpu_bus_and_traps.md R119): a plain assignment to the CPU core's next-fetch address. -/
def resumeAt (s : State) (x : Va) : State := { s with cpu := { s.cpu with pc := x } }

/-! ### Taking a trap (60_exceptions.md R174 to R177; 42_cpu_bus_and_traps.md R111 to R113) -/

/-- A call made by a handler: the operations R113 allows have their effect, every other is refused. -/
def handlerCall (s : State) : Instr → Host.Outcome State Fault Refusal
  | .translate va => answerTranslate s va
  | .readByte va => answerByte s va
  | .writeByte va v => answerState (writeByte s va v)
  | .readWord va => answerWord s va
  | .writeWord va w => answerState (writeWord s va w)
  | .remap i b p => answerRemap s i b p
  | .createHeaderBlock t kind name dataLen p1 p2 => answerHeader s t kind name dataLen p1 p2
  | .writeBlock t data => answerState (writeBlock s t data)
  | .resumeAt x => .next ((resumeAt s x).returning .unit)
  | .reset _ => .refused .handlerCall
  | .powerOn _ => .refused .handlerCall
  | .powerOff => .refused .handlerCall
  | .bankWrite _ => .refused .handlerCall
  | .fetchOpcode _ => .refused .handlerCall
  | .cpuRead _ => .refused .handlerCall
  | .cpuWrite _ _ => .refused .handlerCall
  | .portIn _ => .refused .handlerCall
  | .portOut _ _ => .refused .handlerCall
  | .renderScanline _ => .refused .handlerCall
  | .setBorder _ => .refused .handlerCall
  | .lineOffset _ => .refused .handlerCall
  | .attrDecode _ _ => .refused .handlerCall

/-- One action of a handler. -/
def runAction (s : State) : HandlerAction → Host.Outcome State Fault Refusal
  | .call i => handlerCall s i
  | .setCpuRegs regs => .next { s with cpu := { s.cpu with regs := regs } }
  | .setHost host => .next { s with host := host }
  | .outOfRange => .refused .operandOutOfRange

/-- A handler's actions, one after another. -/
def runActions (s : State) : List HandlerAction → Host.Outcome State Fault Refusal
  | [] => .next s
  | a :: as =>
    match runAction s a with
    | .next t => runActions t as
    | .fault f => .fault f
    | .refused r => .refused r

/-- A part of what a call answered, as a number: of a location the bank and the offset (its policy has no number, R68), of
any other answer its value. No answer reads as 0 (DESIGN CHOICE, log 7); no operation a handler may call answers a row. -/
def resultNumber : Result → Nat → Nat
  | .unit, _ => 0
  | .byte v, _ => v.toNat
  | .word w, _ => w.toNat
  | .location b _ _, 0 => b
  | .location _ o _, _ + 1 => o.toNat
  | .bank b, _ => b
  | .row _, _ => 0
  | .noRow, _ => 0
  | .offset o, _ => o
  | .colours ink _, 0 => ink.toNat
  | .colours _ paper, _ + 1 => paper.toNat

/-- The call answered a location whose policy is ReadWrite. -/
def answeredReadWrite : Result → Bool
  | .location _ _ p => p == .readWrite
  | .unit => false
  | .byte _ => false
  | .word _ => false
  | .bank _ => false
  | .row _ => false
  | .noRow => false
  | .offset _ => false
  | .colours _ _ => false

/-- The number a handler program computes in a state. Numbers never wrap; a missing register or host byte is 0, subtraction stops
at 0, division rounds down, `a / 0` is 0 and `a % 0` is `a` (DESIGN CHOICE, log 7). -/
def evalValue (s : State) : HandlerValue → Nat
  | .lit n => n
  | .answer part => resultNumber s.result part
  | .answerWritable => if answeredReadWrite s.result then 1 else 0
  | .pc => s.cpu.pc.toNat
  | .reg k => (s.cpu.regs.getD (evalValue s k) 0#8).toNat
  | .regCount => s.cpu.regs.length
  | .host k => (s.host.getD (evalValue s k) 0#8).toNat
  | .hostCount => s.host.length
  | .input k => Config.hostInput s.draws (evalValue s k)
  | .add a b => evalValue s a + evalValue s b
  | .sub a b => evalValue s a - evalValue s b
  | .mul a b => evalValue s a * evalValue s b
  | .div a b => evalValue s a / evalValue s b
  | .mod a b => evalValue s a % evalValue s b
  | .xor a b => evalValue s a ^^^ evalValue s b
  | .less a b => if evalValue s a < evalValue s b then 1 else 0
  | .equal a b => if evalValue s a = evalValue s b then 1 else 0

/-- A computed operand of `w` bits, checked as a call record's is: a number that does not fit is no operand (60_exceptions.md
R172). -/
def evalBits (w : Nat) (s : State) (v : HandlerValue) : Except DecodeError (BitVec w) := readBits w (evalValue s v)

/-- The byte sequence a computed operand is. A slice of the host's bytes ends where they end: asked for more than exist, it is
shorter than `count`, where a single missing byte would read as 0 (DESIGN CHOICE, log 7). -/
def evalBytes (s : State) : HandlerBytes → List Byte
  | .lit bytes => bytes
  | .host start count => (s.host.drop (evalValue s start)).take (evalValue s count)

def evalPolicy (s : State) : HandlerPolicy → Policy
  | .named p => p
  | .ifElse c p q => if evalValue s c = 0 then evalPolicy s q else evalPolicy s p

/-- The call a handler program makes in a state, when each operand fits. A slot or a bank is the number itself, whose range
REMAP checks. -/
def evalCall (s : State) : HandlerCall → Except DecodeError Instr
  | .translate va => do return .translate (← evalBits 16 s va)
  | .readByte va => do return .readByte (← evalBits 16 s va)
  | .writeByte va v => do return .writeByte (← evalBits 16 s va) (← evalBits 8 s v)
  | .readWord va => do return .readWord (← evalBits 16 s va)
  | .writeWord va w => do return .writeWord (← evalBits 16 s va) (← evalBits 16 s w)
  | .remap i b p => return .remap (evalValue s i) (evalValue s b) (evalPolicy s p)
  | .resumeAt x => do return .resumeAt (← evalBits 16 s x)
  | .createHeaderBlock t kind name dataLen p1 p2 => do
      return .createHeaderBlock (← evalBits 16 s t) (← evalBits 8 s kind) (evalBytes s name) (← evalBits 16 s dataLen)
        (← evalBits 16 s p1) (← evalBits 16 s p2)
  | .writeBlock t data => do return .writeBlock (← evalBits 16 s t) (evalBytes s data)

/-- What a handler program does with a computed operand: the action it gives, or a call out of range. -/
def actionOf {α : Type} (operand : Except DecodeError α) (action : α → HandlerAction) : HandlerAction :=
  match operand with
  | .ok x => action x
  | .error _ => .outOfRange

/-- The actions `first`, and those that follow in the state they leave; a run that stops in `first` goes no further. -/
def thenActions (s : State) (first : List HandlerAction) (next : State → List HandlerAction) : List HandlerAction :=
  match runActions s first with
  | .next t => first ++ next t
  | .fault _ => first
  | .refused _ => first

/-- A body's actions, `n` times, each time in the state the time before left. -/
def repeatActions (body : State → List HandlerAction) : Nat → State → List HandlerAction
  | 0, _ => []
  | n + 1, s => thenActions s (body s) (repeatActions body n)

/-- The actions a handler program takes when it runs from the state `s`. -/
def codeActions : HandlerCode → State → List HandlerAction
  | .skip, _ => []
  | .act a, _ => [a]
  | .call c, s => [actionOf (evalCall s c) .call]
  | .setReg k v, s => [actionOf (evalBits 8 s v) fun b => .setCpuRegs (s.cpu.regs.set (evalValue s k) b)]
  | .setHost k v, s => [actionOf (evalBits 8 s v) fun b => .setHost (s.host.set (evalValue s k) b)]
  | .pushHost v, s => [actionOf (evalBits 8 s v) fun b => .setHost (s.host ++ [b])]
  | .seq p q, s => thenActions s (codeActions p s) (codeActions q)
  | .ifElse c p q, s => if evalValue s c = 0 then codeActions q s else codeActions p s
  | .times n p, s => repeatActions (codeActions p) (evalValue s n) s

/-- The state in which the handler's first action runs. A program and a routine take a free value at each run (log 11), and
a program starts with no answer of a call: it sees only those of its own (log 12). -/
def handlerStart (s : State) : Handler → State
  | .script _ => s
  | .program _ => s.drawn.returning .unit
  | .routine _ => s.drawn

/-- The actions one run of the handler takes when it is called in the state `s` (R113; log 7). -/
def handlerActions (s : State) : Handler → List HandlerAction
  | .script actions => actions
  | .program code => codeActions code (s.drawn.returning .unit)
  | .routine name => Config.routineActions name s

/-- One run of a handler (R113). -/
def runHandler (s : State) (h : Handler) : Host.Outcome State Fault Refusal :=
  runActions (handlerStart s h) (handlerActions s h)

/-- Matches(e, addr) (R112): the address alone, and under TRAP_FILTER_BY_ROM also the bank in slot 0. -/
def trapMatches (s : State) (e : TrapEntry) (addr : Va) : Bool :=
  e.address == addr && (!s.cfg.trapFilterByRom || s.slots.s0.bank == e.owningRomBank)

/-- The scan of the trap table (R111): every matching entry's handler runs, in table order, each in the state the one before
left; nothing is saved and no mode changes (R174). It returns by reaching the end of the table (R177). -/
def dispatchTraps (s : State) (addr : Va) : List TrapEntry → Host.Outcome State Fault Refusal
  | [] => .next s
  | e :: es =>
    if trapMatches s e addr then
      match runHandler s e.handler with
      | .next t => dispatchTraps t addr es
      | .fault f => .fault f
      | .refused r => .refused r
    else dispatchTraps s addr es

/-- FETCH_OPCODE (R111): the matching handlers, then the byte under the mapping and pool they leave (log 15). -/
def fetchOpcode (s : State) (addr : Va) : Host.Outcome State Fault Refusal :=
  match dispatchTraps s addr s.cfg.trapTable with
  | .next t => answerByte t addr
  | .fault f => .fault f
  | .refused r => .refused r

/-! ### Before POWER_ON (70_reset_and_hazards.md R197) -/

/-- The host's load of one byte of the ROM image: the one store that goes through no slot. Bytes outside the ROM banks are
no part of ROM_IMAGE. The image is loaded from its last entry, so that a byte listed twice holds what `Memory.read` of the
image gives. -/
def loadRomByte (c : Config) (cell : Host.Cell) (m : Memory) : Memory :=
  if romStart c ≤ cell.1 ∧ cell.1 < c.numBanks * 16384 then Memory.write m cell.1 cell.2 else m

/-- The machine the host constructs before POWER_ON: ROM loaded, the trap table in place, no other item meaningful (R198):
every operation but POWER_ON is refused, and POWER_ON writes every item of the block but the ROM bytes. -/
def construct (c : Config) : State where
  cfg            := c
  pool           := c.romImage.foldr (loadRomByte c) []
  slots          := { s0 := ⟨0, .readOnly⟩, s1 := ⟨0, .readOnly⟩, s2 := ⟨0, .readOnly⟩, s3 := ⟨0, .readOnly⟩ }
  bankingEnabled := false
  currentRom     := 0
  videoSelect    := false
  flash          := false
  frameCount     := 0
  borderColor    := 0#4
  powered        := false
  cpu            := { pc := 0#16, regs := [] }
  host           := []
  booted         := false
  pending        := []
  result         := .unit
  draws          := 0

/-! ### The queue of calls (log 1) -/

/-- The oldest waiting call and the state without it. -/
def takeCall (s : State) : Option (Record × State) :=
  match s.pending with
  | [] => none
  | r :: rest => some (r, { s with pending := rest })

end Sys2Proof.Machine
end

