-- ==== Sys2Proof/Machine/Flags.lean ====
section
/-! DEFINITION. The computations of the block's one-bit state: the banking latch and the video bit (41_banking.md R101), the
flash bit and its counter (43_display.md R141). -/

namespace Sys2Proof.Machine

/-- The latch after an effective banking write: only ever 1 to 0 (R101, R102). -/
def latchAfter (v : Byte) (enabled : Bool) : Bool := enabled && !bankLock v

/-- FrameTick (R141): the counter counts modulo 19 and flash toggles when it wraps. -/
def frameTick (s : State) : State :=
  if s.frameCount + 1 = 19 then { s with frameCount := 0, flash := !s.flash }
  else { s with frameCount := s.frameCount + 1 }

/-- The latch a reset leaves: set in the banked variant only (70_reset_and_hazards.md R190). -/
def latchOfVariant : Variant → Bool
  | .simple => false
  | .banked => true

end Sys2Proof.Machine
end

