-- ==== Sys2Proof/Machine/Banking.lean ====
section
/-! DEFINITION. Meaning of BANK_WRITE (41_banking.md), "pure policy layered on top of MMU remap". -/

namespace Sys2Proof.Machine

/-- The alternate ROM that bit 4 selects (R101). -/
def romOfBit (c : Config) (bit : Bool) : Nat := if bit then romAlt1 c else romAlt0 c

/-- BANK_WRITE (R101): a no-op while the latch is clear; else the RAM bank into slot 3, the ROM into slot 0, and the write's
own fields apply before its lock. Bits 7:6 are ignored (30_encoding.md R73). -/
def bankWrite (s : State) (v : Byte) : State :=
  if s.bankingEnabled then
    let r := romOfBit s.cfg (bankRom v)
    let s3 := (remap s 3#2 (bankRam v).toNat .readWrite).1
    let s0 := (remap s3 0#2 r .readOnly).1
    { s0 with
      currentRom     := r
      videoSelect    := bankVid v
      bankingEnabled := latchAfter v s.bankingEnabled }
  else s

/-- BANK_WRITE (R101). -/
def execBankWrite (v : Byte) (s : State) : Host.Outcome State Fault Refusal :=
  whenBooted s (.next ((bankWrite s v).returning .unit))

end Sys2Proof.Machine
end

