-- ==== Sys2Proof/Machine/Bus.lean ====
section
/-! DEFINITION. Meanings of the CPU bus operations and the reverse channel (42_cpu_bus_and_traps.md). -/

namespace Sys2Proof.Machine

/-- PORT_OUT (R118): the banking port performs BANK_WRITE, any other port has no effect on the block. -/
def portOut (s : State) (port : Word) (v : Byte) : State :=
  if isBankPort s.cfg port then bankWrite s v else s

/-- FETCH_OPCODE (R111). -/
def execFetchOpcode (addr : Va) (s : State) : Host.Outcome State Fault Refusal :=
  whenBooted s (fetchOpcode s addr)

/-- CPU_READ (R115): as READ_BYTE; the trap overlay is not consulted. -/
def execCpuRead (addr : Va) (s : State) : Host.Outcome State Fault Refusal :=
  whenBooted s (answerByte s addr)

/-- CPU_WRITE (R116): as WRITE_BYTE. -/
def execCpuWrite (addr : Va) (v : Byte) (s : State) : Host.Outcome State Fault Refusal :=
  whenBooted s (answerState (writeByte s addr v))

/-- PORT_IN (R117): the environment's answer, a free value (log 10); no state of the block changes. -/
def execPortIn (port : Word) (s : State) : Host.Outcome State Fault Refusal :=
  whenBooted s (.next (s.drawn.returning (.byte (Config.portInOracle s.draws port s.host))))

/-- PORT_OUT (R118). -/
def execPortOut (port : Word) (v : Byte) (s : State) : Host.Outcome State Fault Refusal :=
  whenBooted s (.next ((portOut s port v).returning .unit))

/-- RESUME_AT (R119): only the CPU core's next-fetch address changes. -/
def execResumeAt (x : Va) (s : State) : Host.Outcome State Fault Refusal :=
  whenBooted s (.next ((resumeAt s x).returning .unit))

end Sys2Proof.Machine
end

