-- ==== Sys2Proof/Machine/Display.lean ====
section
/-! DEFINITION. The display decoder (43_display.md): its two pure functions, the row it renders, and the meanings of
RENDER_SCANLINE, SET_BORDER, LINE_OFFSET and ATTR_DECODE. -/

namespace Sys2Proof.Machine

/-- AttrDecode (R134): ink and paper indices, exchanged when the flash bit and the flash state are both 1. -/
def attrDecode (a : Byte) (flash : Bool) : ColIdx × ColIdx :=
  let ink := paletteIndex (attrBright a) (attrInk a)
  let paper := paletteIndex (attrBright a) (attrPaper a)
  if attrFlash a && flash then (paper, ink) else (ink, paper)

/-- PixelByte(y, c) (R132): read from the fixed bank, through no slot. -/
def pixelByte (s : State) (y c : Nat) : Byte := s.poolByte s.cfg.displayBank (lineOffset y + c)

/-- AttrByte(y, c) (R133). -/
def attrByte (s : State) (y c : Nat) : Byte := s.poolByte s.cfg.displayBank (attrOffset s.cfg y c)

/-- The 16 output entries of one byte column (R135): bits 7 down to 0, a 1 bit shows ink, each entry twice. -/
def expandByte (p : Byte) (ink paper : ColIdx) : List ColIdx :=
  [7, 6, 5, 4, 3, 2, 1, 0].flatMap fun k =>
    let colour := if p.getLsbD k then ink else paper
    [colour, colour]

/-- The output entries of byte column `c` of active line `y` (R137). -/
def columnEntries (s : State) (y c : Nat) : List ColIdx :=
  let (ink, paper) := attrDecode (attrByte s y c) s.flash
  expandByte (pixelByte s y c) ink paper

/-- A border row (R138). -/
def borderRow (s : State) : List ColIdx := List.replicate (rowWidth s.cfg) s.borderColor

/-- The row of active line `y` (R139). -/
def activeRow (s : State) (y : Nat) : List ColIdx :=
  List.replicate s.cfg.leftBorder s.borderColor ++
    (List.range 32).flatMap (columnEntries s y) ++
    List.replicate s.cfg.rightBorder s.borderColor

/-- Row `index` lies in the top or the bottom border band (R136). -/
def isBorderRow (c : Config) (index : Nat) : Bool :=
  decide (index < c.topBorder) || decide (c.topBorder + 192 ≤ index)

/-- The row of scanline `index` (R137): a border row reads no pool byte. -/
def renderRow (s : State) (index : Nat) : Except Fault (List ColIdx) :=
  if isBorderRow s.cfg index then return borderRow s
  else do
    checkBank s s.cfg.displayBank
    return activeRow s (index - s.cfg.topBorder)

/-- The state in which row `index` is produced: FrameTick at the start of the call with index 0 (R137, R141). -/
def tickedFor (s : State) (index : Nat) : State := if index = 0 then frameTick s else s

/-- RENDER_SCANLINE (R137): range, then power, then tick, then the row. -/
def renderScanline (s : State) (index : Nat) : Host.Outcome State Fault Refusal :=
  if index < s.cfg.height then
    if s.powered then
      match renderRow (tickedFor s index) index with
      | .ok row => .next ((tickedFor s index).returning (.row row))
      | .error f => .fault f
    else .next (s.returning .noRow)
  else .refused .scanlineOutOfRange

/-- The colours shown for a row (R145): PALETTE is uninterpreted (log 18). -/
def shownColours (row : List ColIdx) : List Nat := row.map Config.palette

/-- RENDER_SCANLINE (R137). -/
def execRenderScanline (index : Nat) (s : State) : Host.Outcome State Fault Refusal :=
  whenBooted s (renderScanline s index)

/-- SET_BORDER (R144): in force from the next RENDER_SCANLINE. -/
def execSetBorder (colour : Nat) (s : State) : Host.Outcome State Fault Refusal :=
  whenBooted s
    (if colour < 16 then .next { s with borderColor := BitVec.ofNat 4 colour, result := .unit }
     else .refused .colourOutOfRange)

/-- LINE_OFFSET (R130), a pure function: its value is returned, no state is read (log 17). -/
def execLineOffset (y : Nat) (s : State) : Host.Outcome State Fault Refusal :=
  if y < 192 then .next (s.returning (.offset (lineOffset y))) else .refused .lineOutOfRange

/-- ATTR_DECODE (R134), a pure function (log 17). -/
def execAttrDecode (a : Byte) (flash : Bool) (s : State) : Host.Outcome State Fault Refusal :=
  let (ink, paper) := attrDecode a flash
  .next (s.returning (.colours ink paper))

end Sys2Proof.Machine
end

