-- ==== Sys2Proof/Machine/Mmu.lean ====
section
/-! DEFINITION. Meanings of the MMU operations (40_mmu.md). -/

namespace Sys2Proof.Machine

/-- TRANSLATE (R80): writes nothing of the block. -/
def execTranslate (va : Va) (s : State) : Host.Outcome State Fault Refusal :=
  whenBooted s (answerTranslate s va)

/-- READ_BYTE (R81). -/
def execReadByte (va : Va) (s : State) : Host.Outcome State Fault Refusal :=
  whenBooted s (answerByte s va)

/-- WRITE_BYTE (R82). -/
def execWriteByte (va : Va) (v : Byte) (s : State) : Host.Outcome State Fault Refusal :=
  whenBooted s (answerState (writeByte s va v))

/-- READ_WORD (R83). -/
def execReadWord (va : Va) (s : State) : Host.Outcome State Fault Refusal :=
  whenBooted s (answerWord s va)

/-- WRITE_WORD (R84). -/
def execWriteWord (va : Va) (w : Word) (s : State) : Host.Outcome State Fault Refusal :=
  whenBooted s (answerState (writeWord s va w))

/-- REMAP (R86): any bank with either policy in any slot; neither the latch nor `currentRom` is touched. -/
def execRemap (i b : Nat) (p : Policy) (s : State) : Host.Outcome State Fault Refusal :=
  whenBooted s (answerRemap s i b p)

end Sys2Proof.Machine
end

