-- ==== Sys2Proof/Machine/Power.lean ====
section
/-! DEFINITION. Meanings of RESET, POWER_ON and POWER_OFF (70_reset_and_hazards.md). -/

namespace Sys2Proof.Machine

/-- The bank a reset puts in slot 0 (R190). -/
def bootRom (c : Config) : Variant → Nat
  | .simple => romPrimary c
  | .banked => romAlt0 c

/-- The default boot mapping (R190). -/
def bootSlots (c : Config) (v : Variant) : SlotMap where
  s0 := ⟨bootRom c v, .readOnly⟩
  s1 := ⟨c.slot1Bank, .readWrite⟩
  s2 := ⟨c.slot2Bank, .readWrite⟩
  s3 := ⟨c.slot3ResetBank, .readWrite⟩

/-- RESET (R190): every RAM byte 0, the boot mapping, the latch per variant; ROM banks, the decoder's state, the border and
`powered` are not touched (R191). -/
def resetBlock (s : State) (v : Variant) : State :=
  { s with
    pool           := Memory.zeroBelow s.pool (romStart s.cfg)
    slots          := bootSlots s.cfg v
    bankingEnabled := latchOfVariant v
    currentRom     := bootRom s.cfg v
    videoSelect    := false }

/-- POWER_ON (R192): the decoder's state cleared, powered, RESET; the border colour is a free value (log 9). -/
def powerOn (s : State) (v : Variant) : State :=
  { resetBlock s v with
    flash       := false
    frameCount  := 0
    powered     := true
    booted      := true
    borderColor := Config.freeBorder s.draws
    draws       := s.draws + 1 }

/-- RESET (R190). -/
def execReset (v : Variant) (s : State) : Host.Outcome State Fault Refusal :=
  whenBooted s (.next ((resetBlock s v).returning .unit))

/-- POWER_ON (R192): the one operation defined before the first POWER_ON (R198). -/
def execPowerOn (v : Variant) (s : State) : Host.Outcome State Fault Refusal :=
  .next ((powerOn s v).returning .unit)

/-- POWER_OFF (R193): memory, mapping and counters keep their values. -/
def execPowerOff (s : State) : Host.Outcome State Fault Refusal :=
  whenBooted s (.next { s with powered := false, result := .unit })

end Sys2Proof.Machine
end

