-- ==== Sys2Proof/Machine/Tape.lean ====
section
/-! DEFINITION. The entry points offered to the tape collaborator (44_tape_interface.md), and the collaborator's byte format
as pure functions that no operation uses. -/

namespace Sys2Proof.Machine

/-- The checksum of a tape block (R162): the exclusive or of the type byte and every payload byte. -/
def tapeChecksum (kind : Byte) (payload : List Byte) : Byte := payload.foldl (· ^^^ ·) kind

/-- A tape block (R160). `countsChecksum` is the parameter of 93_implementation_defined.md U12: whether the length field
counts the checksum byte; read literally it does not. No operation of the block processes the format (log 23). R160 defines
no block whose length does not fit the 2-byte field, and none whose type byte is neither 0x00 nor 0xFF; that this function
takes the length modulo 65536 there, and any type byte, is the model's choice (DESIGN CHOICE, log 25). -/
def tapeBlock (countsChecksum : Bool) (kind : Byte) (payload : List Byte) : List Byte :=
  let len := BitVec.ofNat 16 (1 + payload.length + (if countsChecksum then 1 else 0))
  [lowByte len, highByte len, kind] ++ payload ++ [tapeChecksum kind payload]

/-- CREATE_HEADER_BLOCK (R163). -/
def execCreateHeaderBlock (t : Va) (kind : Byte) (name : List Byte) (dataLen p1 p2 : Word) (s : State) :
    Host.Outcome State Fault Refusal :=
  whenBooted s (answerHeader s t kind name dataLen p1 p2)

/-- WRITE_BLOCK (R164). -/
def execWriteBlock (t : Va) (data : List Byte) (s : State) : Host.Outcome State Fault Refusal :=
  whenBooted s (answerState (writeBlock s t data))

end Sys2Proof.Machine
end

