-- ==== Sys2Proof/Machine/Dispatch.lean ====
section
/-! DEFINITION. One arm per operation of 30_encoding.md R72, each a direct call of its meaning. -/

namespace Sys2Proof.Machine

def exec (i : Instr) (s : State) : Host.Outcome State Fault Refusal :=
  match i with
  | .translate va => Sys2Proof.Machine.execTranslate va s
  | .readByte va => Sys2Proof.Machine.execReadByte va s
  | .writeByte va v => Sys2Proof.Machine.execWriteByte va v s
  | .readWord va => Sys2Proof.Machine.execReadWord va s
  | .writeWord va w => Sys2Proof.Machine.execWriteWord va w s
  | .remap k b p => Sys2Proof.Machine.execRemap k b p s
  | .reset v => Sys2Proof.Machine.execReset v s
  | .powerOn v => Sys2Proof.Machine.execPowerOn v s
  | .powerOff => Sys2Proof.Machine.execPowerOff s
  | .bankWrite v => Sys2Proof.Machine.execBankWrite v s
  | .fetchOpcode addr => Sys2Proof.Machine.execFetchOpcode addr s
  | .cpuRead addr => Sys2Proof.Machine.execCpuRead addr s
  | .cpuWrite addr v => Sys2Proof.Machine.execCpuWrite addr v s
  | .portIn port => Sys2Proof.Machine.execPortIn port s
  | .portOut port v => Sys2Proof.Machine.execPortOut port v s
  | .resumeAt x => Sys2Proof.Machine.execResumeAt x s
  | .renderScanline index => Sys2Proof.Machine.execRenderScanline index s
  | .setBorder colour => Sys2Proof.Machine.execSetBorder colour s
  | .createHeaderBlock t kind name dataLen p1 p2 => Sys2Proof.Machine.execCreateHeaderBlock t kind name dataLen p1 p2 s
  | .writeBlock t data => Sys2Proof.Machine.execWriteBlock t data s
  | .lineOffset y => Sys2Proof.Machine.execLineOffset y s
  | .attrDecode a flash => Sys2Proof.Machine.execAttrDecode a flash s

end Sys2Proof.Machine
end

