-- ==== Sys2Proof/Machine/Step.lean ====
section
/-! DEFINITION. One step: the oldest waiting call is decoded and run; with no call waiting nothing happens (log 1). -/

namespace Sys2Proof.Machine

/-- One step of the block (70_reset_and_hazards.md R208: exactly one call happens next, and which is the environment's). -/
def step (s : State) : Host.Outcome State Fault Refusal :=
  match takeCall s with
  | none => .next s
  | some (r, t) =>
    match decode r with
    | .ok i => exec i t
    | .error e => .refused (.undecodable e)

/-- The state with the call of an opcode table word as its only waiting call (log 1, log 2). -/
def State.withFetchWord (s : State) (nbits w : Nat) : State :=
  { s with pending := [tableRecord nbits w] }

end Sys2Proof.Machine
end

