-- ==== Sys2Proof/Safety.lean ====
section
/-! DEFINITION. What counts as a good state and a safe run, in the terms the obligations use. -/

namespace Sys2Proof.Machine

/-- Every slot register names a bank that exists (00_scope.md R11, `bankidx`). -/
abbrev State.BanksExist (s : State) : Prop :=
  s.slots.s0.bank < s.cfg.numBanks ∧ s.slots.s1.bank < s.cfg.numBanks ∧
  s.slots.s2.bank < s.cfg.numBanks ∧ s.slots.s3.bank < s.cfg.numBanks

/-- The invariant of the machine: admissible parameters, existing banks in the slots and in `currentRom`, a pool in canonical
form that lists nothing outside the arena (20_memory.md R41), and a counter below 19 (10_state.md R28). -/
abbrev State.Inv (s : State) : Prop :=
  s.cfg.Ok ∧ s.BanksExist ∧ s.currentRom < s.cfg.numBanks ∧
  Memory.Wf s.pool ∧ (∀ c ∈ s.pool, c.1 < s.cfg.numBanks * 16384) ∧
  s.frameCount < 19

/-- The slot invariant of 10_state.md R36 for the variant of the last reset, with the closed latch that makes the simple
variant's mapping fixed (41_banking.md R104). -/
abbrev State.SlotLayout (v : Variant) (s : State) : Prop :=
  s.slots.s0.policy = .readOnly ∧
  s.slots.s1 = ⟨s.cfg.slot1Bank, .readWrite⟩ ∧
  s.slots.s2 = ⟨s.cfg.slot2Bank, .readWrite⟩ ∧
  s.slots.s3.policy = .readWrite ∧
  (v = .simple → s.slots.s0.bank = s.cfg.numBanks - 2 ∧ s.slots.s3.bank = s.cfg.slot3ResetBank ∧
    s.bankingEnabled = false) ∧
  (v = .banked → (s.slots.s0.bank = romAlt0 s.cfg ∨ s.slots.s0.bank = romAlt1 s.cfg) ∧
    (s.slots.s3.bank = s.cfg.slot3ResetBank ∨ s.slots.s3.bank ≤ 7))

/-- The operations a trap handler may call (42_cpu_bus_and_traps.md R113). -/
def handlerMayCall : Instr → Bool
  | .translate _ => true
  | .readByte _ => true
  | .writeByte _ _ => true
  | .readWord _ => true
  | .writeWord _ _ => true
  | .remap _ _ _ => true
  | .reset _ => false
  | .powerOn _ => false
  | .powerOff => false
  | .bankWrite _ => false
  | .fetchOpcode _ => false
  | .cpuRead _ => false
  | .cpuWrite _ _ => false
  | .portIn _ => false
  | .portOut _ _ => false
  | .resumeAt _ => true
  | .renderScanline _ => false
  | .setBorder _ => false
  | .createHeaderBlock _ _ _ _ _ _ => true
  | .writeBlock _ _ => true
  | .lineOffset _ => false
  | .attrDecode _ _ => false

/-- An action a handler may take: a permitted call in its domain, or a change outside the block. -/
def actionAllowed (c : Config) : HandlerAction → Bool
  | .call i => handlerMayCall i && i.wellFormed c
  | .setCpuRegs _ => true
  | .setHost _ => true
  | .outOfRange => false

/-- Each action the handler takes, in whatever state it is run, has the property. -/
def HandlerAll (ok : HandlerAction → Prop) (h : Handler) : Prop := ∀ s, ∀ a ∈ handlerActions s h, ok a

/-- The handler keeps its side of R113 whatever state it is run in. -/
def HandlerSafe (c : Config) : Handler → Prop := HandlerAll (fun a => actionAllowed c a = true)

/-- The handlers of the trap table that a fetch at `addr` can run keep their side of R113. -/
def TrapsSafe (c : Config) (addr : Va) : Prop :=
  ∀ e ∈ c.trapTable, e.address = addr → HandlerSafe c e.handler

/-- The action is a REMAP. -/
def actionIsRemap : HandlerAction → Bool
  | .call (.remap _ _ _) => true
  | _ => false

/-- The handler never calls REMAP. -/
def HandlerKeepsMapping : Handler → Prop := HandlerAll (fun a => actionIsRemap a = false)

/-- No handler of the trap table calls REMAP (R36). -/
def TrapsKeepMapping (c : Config) : Prop := ∀ e ∈ c.trapTable, HandlerKeepsMapping e.handler

/-- The next waiting call is not a REMAP. -/
def nextIsNoRemap (s : State) : Prop :=
  ∀ r t k b p, takeCall s = some (r, t) → decode r ≠ .ok (.remap k b p)

/-- The script actions of the entries at `addr`, in table order; a program or a routine has none here. -/
def scriptsAt (addr : Va) : List TrapEntry → List HandlerAction
  | [] => []
  | e :: es =>
    match e.handler with
    | .script actions => if e.address = addr then actions ++ scriptsAt addr es else scriptsAt addr es
    | .program _ => scriptsAt addr es
    | .routine _ => scriptsAt addr es

/-- The scan of a trap table as 42_cpu_bus_and_traps.md R111 tells it: `Dispatched addr s es t` says that from `s` to `t`
exactly those entries of `es` that match when their turn comes have run, in table order. -/
inductive Dispatched (addr : Va) : State → List TrapEntry → State → Prop where
  | done (s : State) : Dispatched addr s [] s
  | fires {s t u : State} {e : TrapEntry} {es : List TrapEntry} (hm : trapMatches s e addr = true)
      (hr : runActions (handlerStart s e.handler) (handlerActions s e.handler) = .next t)
      (rest : Dispatched addr t es u) : Dispatched addr s (e :: es) u
  | passes {s u : State} {e : TrapEntry} {es : List TrapEntry} (hm : trapMatches s e addr = false)
      (rest : Dispatched addr s es u) : Dispatched addr s (e :: es) u

/-- An outcome, and what is done in the state it leaves; a stop stays. -/
def followedBy (o : Host.Outcome State Fault Refusal) (next : State → Host.Outcome State Fault Refusal) :
    Host.Outcome State Fault Refusal :=
  match o with
  | .next t => next t
  | .fault f => .fault f
  | .refused r => .refused r

/-- A handler program run from a state: its actions there, one after another. -/
def runCode (code : HandlerCode) (s : State) : Host.Outcome State Fault Refusal := runActions s (codeActions code s)

/-- The handler of vector V-T2 at any address: READ_BYTE, then WRITE_BYTE of the answer plus 1, modulo 256 as a byte is. -/
def incrementAt (va : Va) : HandlerCode :=
  .seq (.call (.readByte (.lit va.toNat))) (.call (.writeByte (.lit va.toNat) (.mod (.add (.answer 0) (.lit 1)) (.lit 256))))

/-- The action is a RESUME_AT. -/
def actionIsResume : HandlerAction → Bool
  | .call (.resumeAt _) => true
  | _ => false

/-- The handler never calls RESUME_AT. -/
def HandlerNeverResumes : Handler → Prop := HandlerAll (fun a => actionIsResume a = false)

/-- `n` frame boundaries: `n` calls of RENDER_SCANLINE 0, one after another (43_display.md R142). -/
def frameBoundaries : Nat → State → Host.Outcome State Fault Refusal
  | 0, s => .next s
  | n + 1, s =>
    match exec (.renderScanline 0) s with
    | .next t => frameBoundaries n t
    | .fault f => .fault f
    | .refused r => .refused r

/-- Calls made one after another, whoever makes each (70_reset_and_hazards.md R208). -/
def runCalls : List Instr → State → Host.Outcome State Fault Refusal
  | [], s => .next s
  | i :: is, s =>
    match exec i s with
    | .next t => runCalls is t
    | .fault f => .fault f
    | .refused r => .refused r

/-- The frame boundaries since the last POWER_ON (43_display.md R142), after the given calls: `n` and `powered` are what the
count and the power bit were before them; only a call of RENDER_SCANLINE 0 while powered counts. -/
def boundariesAfter (n : Nat) (powered : Bool) : List Instr → Nat
  | [] => n
  | .powerOn _ :: is => boundariesAfter 0 true is
  | .powerOff :: is => boundariesAfter n false is
  | .renderScanline 0 :: is => boundariesAfter (if powered then n + 1 else n) powered is
  | _ :: is => boundariesAfter n powered is

/-- A step that did not stop with a fault: what a safe run consists of. -/
def noFault : Host.Outcome State Fault Refusal → Prop
  | .next _ => True
  | .fault _ => False
  | .refused _ => True

end Sys2Proof.Machine
end

