-- ==== Sys2Proof/Certificates/Slice0/Obligations.lean ====
section
/-! DEFINITION. The statements for the provers, one for each numbered rule of spec/ that says what an operation or the block
does. Each docstring names the rule it formalises. -/

open Sys2Proof Sys2Proof.Machine

/-! ### Call records and operand layouts -/

/-- Decoding an encoded call gives the call back, every operand at every value (30_encoding.md R72; the record form is the
model's own, log 2). -/
def Obligations.DecodeReadsBackEveryCall : Prop :=
  ∀ i : Instr, decode (encode i) = .ok i

/-- A record that decodes is the encoding of its call: every record has at most one reading and no entry is dropped (the
record form is the model's own, log 2). -/
def Obligations.DecodedRecordIsTheEncoding : Prop :=
  ∀ (r : Record) (i : Instr), decode r = .ok i → encode i = r

/-- A few records written from the list of 30_encoding.md R72, and the one opcode-table word with decoded bits, PORT_OUT's
(42_cpu_bus_and_traps.md R118), decode to their calls; an empty record and a 17-bit address do not (log 2). -/
def Obligations.RecordsWrittenFromTheListDecode : Prop :=
  decode [2, 0xC000, 0x5A] = .ok (.writeByte 0xC000#16 0x5A#8) ∧
  decode [5, 3, 7, 1] = .ok (.remap 3 7 .readWrite) ∧
  decode [7, 1] = .ok (.powerOn .banked) ∧
  decode [10, 0x0556] = .ok (.fetchOpcode 0x0556#16) ∧
  decode [14, 0x7FFD, 0x11] = .ok (.portOut 0x7FFD#16 0x11#8) ∧
  decode [16, 24] = .ok (.renderScanline 24) ∧
  decode [18, 0x8000, 3, 0x1B00, 0x4000, 0x8000, 0x61, 0x62] =
    .ok (.createHeaderBlock 0x8000#16 3#8 [0x61#8, 0x62#8] 0x1B00#16 0x4000#16 0x8000#16) ∧
  decodeTableWord 16 0x7FFD = some (.portOut 0x7FFD#16 0#8) ∧
  decode [] = .error .noSuchCall ∧
  decode [1, 65536] = .error .operandTooWide

/-- The fields of the banking byte lie where 30_encoding.md R62 puts them: taking a byte apart and putting it together, and
the other way, are inverse, and the fields are the rule's bit ranges as numbers. -/
def Obligations.BankingByteFieldsLieAsTabulated : Prop :=
  (∀ v : Byte,
    (bankRam v).toNat = v.toNat % 8 ∧
    (bankVid v = true ↔ v.toNat / 8 % 2 = 1) ∧
    (bankRom v = true ↔ v.toNat / 16 % 2 = 1) ∧
    (bankLock v = true ↔ v.toNat / 32 % 2 = 1) ∧
    bankingByte (BitVec.ofNat 2 (v.toNat / 64)) (bankLock v) (bankRom v) (bankVid v) (bankRam v) = v) ∧
  ∀ (x : BitVec 2) (l r d : Bool) (b : BitVec 3),
    bankRam (bankingByte x l r d b) = b ∧ bankVid (bankingByte x l r d b) = d ∧
    bankRom (bankingByte x l r d b) = r ∧ bankLock (bankingByte x l r d b) = l

/-- The fields of the attribute byte lie where 30_encoding.md R63 puts them, and a palette index is bright ++ colour (R70). R63
marks the positions of paper and flash as not in the source (PRESUMED, log 19), and that of bright as derived from the example
0x47 (DEDUCED, log 19). -/
def Obligations.AttributeByteFieldsLieAsTabulated : Prop :=
  (∀ a : Byte,
    (attrInk a).toNat = a.toNat % 8 ∧
    (attrPaper a).toNat = a.toNat / 8 % 8 ∧
    (attrBright a = true ↔ a.toNat / 64 % 2 = 1) ∧
    (attrFlash a = true ↔ a.toNat / 128 % 2 = 1) ∧
    attrByteOf (attrFlash a) (attrBright a) (attrPaper a) (attrInk a) = a) ∧
  ∀ (bright : Bool) (colour : BitVec 3), paletteIndex bright colour = BitVec.ofBool bright ++ colour

/-- The pixel-byte offset of an active line is segment ++ line ++ cell ++ column, 13 bits, always below 6144
(30_encoding.md R65). -/
def Obligations.PixelOffsetIsTheFieldSwap : Prop :=
  ∀ (y : BitVec 8) (c : BitVec 5), y.toNat < 192 →
    lineOffset y.toNat + c.toNat =
      (y.extractLsb' 6 2 ++ y.extractLsb' 0 3 ++ y.extractLsb' 3 3 ++ c).toNat ∧
    lineOffset y.toNat + c.toNat < 6144

/-- Page p's byte q is byte (p mod 2) * 8192 + q of bank p / 2: the page view has no storage of its own (10_state.md R21,
00_scope.md R12). -/
def Obligations.PageViewAliasesItsBank : Prop :=
  ∀ (s : State) (p q : Nat), s.pageByte p q = s.poolByte (p / 2) ((p % 2) * 8192 + q)

/-! ### The MMU -/

/-- Translation (20_memory.md R52): the slot is va / 16384, the offset va mod 16384, the byte that of the slot's bank, and
within a slot no two addresses meet (R54, translation coverage). -/
def Obligations.TranslationSplitsTheAddress : Prop :=
  (∀ (s : State) (va : Va),
    (vaSlot va).toNat = va.toNat / 16384 ∧
    (vaOffset va).toNat = va.toNat % 16384 ∧
    (vaOffset va).toNat < 16384 ∧
    vaOf (vaSlot va) (vaOffset va) = va ∧
    s.slotOf va =
      (if va.toNat < 0x4000 then s.slots.s0 else if va.toNat < 0x8000 then s.slots.s1
        else if va.toNat < 0xC000 then s.slots.s2 else s.slots.s3) ∧
    s.physOf va = (s.slotOf va).bank * 16384 + va.toNat % 16384) ∧
  ∀ (s : State) (va vb : Va), vaSlot va = vaSlot vb → s.physOf va = s.physOf vb → va = vb

/-- TRANSLATE (40_mmu.md R80) answers the slot's bank, the offset and the slot's policy, and changes nothing else. -/
def Obligations.TranslateAnswersTheLocation : Prop :=
  ∀ (s : State) (va : Va), s.booted = true →
    exec (.translate va) s =
      .next { s with
        result := .location (s.slotOf va).bank (BitVec.ofNat 14 (va.toNat % 16384)) (s.slotOf va).policy }

/-- READ_BYTE (40_mmu.md R81) answers the mapped byte, whatever the policy, and changes nothing else. -/
def Obligations.ReadByteAnswersTheMappedByte : Prop :=
  ∀ (s : State) (va : Va), s.booted = true → (s.slotOf va).bank < s.cfg.numBanks →
    exec (.readByte va) s = .next { s with result := .byte (Memory.read s.pool (s.physOf va)) }

/-- WRITE_BYTE (40_mmu.md R82): a ReadWrite slot stores the byte at the address it translates to and every other pool byte
is unchanged; a ReadOnly slot changes nothing. -/
def Obligations.WriteByteStoresOrIsDiscarded : Prop :=
  ∀ (s : State) (va : Va) (v : Byte), s.booted = true →
    ((s.slotOf va).policy = .readWrite → (s.slotOf va).bank < s.cfg.numBanks →
      ∃ t, exec (.writeByte va v) s = .next t ∧
        t = { s with pool := t.pool, result := .unit } ∧
        ∀ a, Memory.read t.pool a = if a = s.physOf va then v else Memory.read s.pool a) ∧
    ((s.slotOf va).policy = .readOnly → exec (.writeByte va v) s = .next { s with result := .unit })

/-- The properties of 20_memory.md R54 as two calls in a row: after WRITE_BYTE, READ_BYTE of the same address gives the
written byte where the slot is ReadWrite (RAM round-trip) and the old byte where it is ReadOnly (ROM protection). -/
def Obligations.WrittenByteReadsBack : Prop :=
  ∀ (s : State) (va : Va) (v : Byte), s.booted = true → (s.slotOf va).bank < s.cfg.numBanks →
    ∃ t u, exec (.writeByte va v) s = .next t ∧ exec (.readByte va) t = .next u ∧
      u.result = .byte (if (s.slotOf va).policy = .readWrite then v else Memory.read s.pool (s.physOf va))

/-- READ_WORD (40_mmu.md R83): hi * 256 + lo, each byte translated on its own, the second at va + 1 modulo 65536. -/
def Obligations.ReadWordIsLittleEndian : Prop :=
  ∀ (s : State) (va : Va), s.booted = true →
    (s.slotOf va).bank < s.cfg.numBanks → (s.slotOf (va + 1#16)).bank < s.cfg.numBanks →
    exec (.readWord va) s =
      .next { s with
        result := .word (BitVec.ofNat 16
          ((Memory.read s.pool (s.physOf (va + 1#16))).toNat * 256 + (Memory.read s.pool (s.physOf va)).toNat)) }

/-- WRITE_WORD (40_mmu.md R84): w[7:0] at va and w[15:8] at va + 1, each stored only through a ReadWrite slot, every other
pool byte unchanged. -/
def Obligations.WriteWordStoresEachByteOnItsOwn : Prop :=
  ∀ (s : State) (va : Va) (w : Word), s.booted = true →
    (s.slotOf va).bank < s.cfg.numBanks → (s.slotOf (va + 1#16)).bank < s.cfg.numBanks →
    ∃ t, exec (.writeWord va w) s = .next t ∧
      t = { s with pool := t.pool, result := .unit } ∧
      ∀ a, Memory.read t.pool a =
        if a = s.physOf va ∧ (s.slotOf va).policy = .readWrite then BitVec.ofNat 8 (w.toNat % 256)
        else if a = s.physOf (va + 1#16) ∧ (s.slotOf (va + 1#16)).policy = .readWrite then BitVec.ofNat 8 (w.toNat / 256)
        else Memory.read s.pool a

/-- The two bytes of a word lie at different physical locations, even when two slots hold the same bank (20_memory.md R48). -/
def Obligations.WordHalvesNeverShareAByte : Prop :=
  ∀ (s : State) (va : Va), s.physOf va ≠ s.physOf (va + 1#16)

/-- A bank in two slots is one storage (10_state.md R37): a byte stored through a ReadWrite slot is read through any address
that has the same offset in a slot with the same bank. -/
def Obligations.AliasedWindowsShareTheirBytes : Prop :=
  ∀ (s : State) (va vb : Va) (v : Byte), s.booted = true →
    (s.slotOf va).policy = .readWrite → (s.slotOf va).bank < s.cfg.numBanks →
    (s.slotOf vb).bank = (s.slotOf va).bank → va.toNat % 16384 = vb.toNat % 16384 →
    ∃ t u, exec (.writeByte va v) s = .next t ∧ exec (.readByte vb) t = .next u ∧ u.result = .byte v

/-- REMAP (40_mmu.md R86): the slot holds the new bank and policy, the bank it held before is answered, no other slot, no
pool byte, no latch and no `currentRom` changes; a slot above 3 or a bank not below NUM_BANKS is refused. -/
def Obligations.RemapReplacesOneSlot : Prop :=
  ∀ (s : State) (i b : Nat) (p : Policy), s.booted = true →
    (i < 4 → b < s.cfg.numBanks →
      ∃ t, exec (.remap i b p) s = .next t ∧
        t = { s with slots := t.slots, result := .bank (s.slots.get (BitVec.ofNat 2 i)).bank } ∧
        ∀ j : BitVec 2, t.slots.get j = if j.toNat = i then ⟨b, p⟩ else s.slots.get j) ∧
    (4 ≤ i → exec (.remap i b p) s = .refused .slotOutOfRange) ∧
    (i < 4 → s.cfg.numBanks ≤ b → exec (.remap i b p) s = .refused .bankOutOfRange)

/-- A remap is seen by the very next access (40_mmu.md R87, 10_state.md R35): after REMAP of the slot an address falls in,
READ_BYTE of the address gives the new bank's byte at its offset. -/
def Obligations.RemapIsSeenByTheNextRead : Prop :=
  ∀ (s : State) (va : Va) (b : Nat) (p : Policy), s.booted = true → b < s.cfg.numBanks →
    ∃ t u, exec (.remap (va.toNat / 16384) b p) s = .next t ∧ exec (.readByte va) t = .next u ∧
      u.result = .byte (Memory.read s.pool (b * 16384 + va.toNat % 16384))

/-! ### The Banking-Mode Controller -/

/-- BANK_WRITE (41_banking.md R101): while enabled, RAM bank v[2:0] into slot 3 ReadWrite, the alternate ROM of v[4] into
slot 0 ReadOnly, `currentRom`, `videoSelect` and the lock; while disabled, nothing. The two alternate ROMs are the banks
NUM_BANKS - 4 and NUM_BANKS - 3 (00_scope.md R6), in the order the OPEN parameter `altSwapped` gives. -/
def Obligations.BankWriteMapsAndLocks : Prop :=
  (∀ c : Config,
    (c.altSwapped = false → romAlt0 c = c.numBanks - 4 ∧ romAlt1 c = c.numBanks - 3) ∧
    (c.altSwapped = true → romAlt0 c = c.numBanks - 3 ∧ romAlt1 c = c.numBanks - 4)) ∧
  ∀ (s : State) (v : Byte), s.booted = true →
    (s.bankingEnabled = true →
      exec (.bankWrite v) s =
        .next { s with
          slots :=
            { s.slots with
              s3 := ⟨v.toNat % 8, .readWrite⟩
              s0 := ⟨if v.toNat / 16 % 2 = 0 then romAlt0 s.cfg else romAlt1 s.cfg, .readOnly⟩ }
          currentRom := if v.toNat / 16 % 2 = 0 then romAlt0 s.cfg else romAlt1 s.cfg
          videoSelect := decide (v.toNat / 8 % 2 = 1)
          bankingEnabled := decide (v.toNat / 32 % 2 = 0)
          result := .unit }) ∧
    (s.bankingEnabled = false → exec (.bankWrite v) s = .next { s with result := .unit })

/-- Bits 7:6 of the banking byte are ignored (30_encoding.md R73): a byte behaves exactly as itself modulo 64. -/
def Obligations.BankWriteIgnoresTheHighBits : Prop :=
  ∀ (s : State) (v : Byte), exec (.bankWrite v) s = exec (.bankWrite (BitVec.ofNat 8 (v.toNat % 64))) s

/-- The latch (41_banking.md R102, 10_state.md R24): whatever the call, handlers included, a clear latch is set only by RESET
or POWER_ON of the banked variant. -/
def Obligations.OnlyBankedResetSetsTheLatch : Prop :=
  ∀ (s t : State) (i : Instr), exec i s = .next t → s.bankingEnabled = false → t.bankingEnabled = true →
    i = .reset .banked ∨ i = .powerOn .banked

/-- PORT_OUT (42_cpu_bus_and_traps.md R118): a banking port performs BANK_WRITE of the byte and completes, any other port
changes nothing. -/
def Obligations.PortOutReachesOnlyTheBankingPort : Prop :=
  ∀ (s : State) (port : Word) (v : Byte), s.booted = true →
    (port ∈ s.cfg.bankPorts →
      ∃ t, exec (.portOut port v) s = .next t ∧ exec (.bankWrite v) s = .next t) ∧
    (port ∉ s.cfg.bankPorts → exec (.portOut port v) s = .next { s with result := .unit })

/-! ### The CPU bus and the trap overlay -/

/-- A trap miss (42_cpu_bus_and_traps.md R111, 30_encoding.md R76): with no entry at the address, FETCH_OPCODE answers the
mapped byte and changes nothing else. -/
def Obligations.FetchWithoutTrapIsAPlainRead : Prop :=
  ∀ (s : State) (addr : Va), s.booted = true → (s.slotOf addr).bank < s.cfg.numBanks →
    (∀ e ∈ s.cfg.trapTable, e.address ≠ addr) →
    exec (.fetchOpcode addr) s = .next { s with result := .byte (Memory.read s.pool (s.physOf addr)) }

/-- Trap dispatch (42_cpu_bus_and_traps.md R111, R112; 60_exceptions.md R176), filtered or not, scripts and routines alike: a
fetch runs exactly the entries that match in the state the handlers before them left, in table order, and then answers the
byte as CPU_READ would in the state they leave; it has no other way to a next state. With unfiltered matching and scripts
this is the actions of all entries at the address, in table order. That the byte is read after the handlers and not before
is a choice where a handler changes it (DESIGN CHOICE, the spec's D16, log 15; 93_implementation_defined.md U1 allows either). -/
def Obligations.FetchRunsMatchingHandlersInTableOrder : Prop :=
  (∀ (s u : State) (addr : Va), s.booted = true →
    (exec (.fetchOpcode addr) s = .next u ↔
      ∃ t, Dispatched addr s s.cfg.trapTable t ∧ exec (.cpuRead addr) t = .next u)) ∧
  ∀ (s t : State) (addr : Va), s.booted = true → s.cfg.trapFilterByRom = false →
    (∀ e ∈ s.cfg.trapTable, e.address = addr → ∃ actions, e.handler = .script actions) →
    runActions s (scriptsAt addr s.cfg.trapTable) = .next t →
    exec (.fetchOpcode addr) s = exec (.cpuRead addr) t

/-- FETCH_OPCODE completes (42_cpu_bus_and_traps.md R111, R113): with existing banks and handlers that keep to the calls R113
allows them, in their domain, the fetch answers the byte mapped at the address in the state it leaves; the parameters, the
decoder's state, the banking state and the border are as before. That the byte is the one in the state the handlers leave is
a choice where a handler changes it (DESIGN CHOICE, the spec's D16, log 15; 93_implementation_defined.md U1 allows either). -/
def Obligations.FetchCompletesWithPermittedHandlers : Prop :=
  ∀ (s : State) (addr : Va), s.booted = true → s.BanksExist → TrapsSafe s.cfg addr →
    ∃ t, exec (.fetchOpcode addr) s = .next t ∧
      t.result = .byte (Memory.read t.pool (t.physOf addr)) ∧
      t = { s with
        pool := t.pool, slots := t.slots, cpu := t.cpu, host := t.host, draws := t.draws, result := t.result }

/-- Trap transparency (42_cpu_bus_and_traps.md R114): no-op handlers leave the fetch a plain read, and any handlers that change
neither the address's slot register nor the byte it translates to leave the answered byte what READ_BYTE would have
given before. -/
def Obligations.TrapsAreTransparent : Prop :=
  (∀ (s : State) (addr : Va), s.booted = true → (s.slotOf addr).bank < s.cfg.numBanks →
    (∀ e ∈ s.cfg.trapTable, e.address = addr → e.handler = .script []) →
    exec (.fetchOpcode addr) s = .next { s with result := .byte (Memory.read s.pool (s.physOf addr)) }) ∧
  ∀ (s t : State) (addr : Va), exec (.fetchOpcode addr) s = .next t →
    t.slotOf addr = s.slotOf addr → Memory.read t.pool (s.physOf addr) = Memory.read s.pool (s.physOf addr) →
    t.result = .byte (Memory.read s.pool (s.physOf addr))

/-- A handler that calls an operation outside the list of 42_cpu_bus_and_traps.md R113, FETCH_OPCODE among them, is refused
(60_exceptions.md R172, 70_reset_and_hazards.md R201; log 24): the entry at any place of the table that matches when its turn
comes, the forbidden call after any actions that ran, script, program or routine. So is a handler's call outside the operation's
domain (60_exceptions.md R172): whatever name the call itself is refused by, the fetch is, and a call with an operand that
does not fit its width is refused. -/
def Obligations.ForbiddenHandlerCallIsRefused : Prop :=
  (∀ (s t u : State) (addr : Va) (i : Instr) (before more : List HandlerAction) (pre es : List TrapEntry) (e : TrapEntry),
    s.booted = true → handlerMayCall i = false →
    s.cfg.trapTable = pre ++ e :: es → dispatchTraps s addr pre = .next t → trapMatches t e addr = true →
    handlerActions t e.handler = before ++ .call i :: more →
    runActions (handlerStart t e.handler) before = .next u →
    exec (.fetchOpcode addr) s = .refused .handlerCall) ∧
  (∀ (s t u : State) (addr : Va) (a : HandlerAction) (r : Refusal) (before more : List HandlerAction) (pre es : List TrapEntry)
      (e : TrapEntry),
    s.booted = true → runAction u a = .refused r →
    s.cfg.trapTable = pre ++ e :: es → dispatchTraps s addr pre = .next t → trapMatches t e addr = true →
    handlerActions t e.handler = before ++ a :: more →
    runActions (handlerStart t e.handler) before = .next u →
    exec (.fetchOpcode addr) s = .refused r) ∧
  ∀ s : State, runAction s .outOfRange = .refused .operandOutOfRange

/-- Matching (42_cpu_bus_and_traps.md R112): the exact address, and with TRAP_FILTER_BY_ROM also the owning bank in slot 0. -/
def Obligations.TrapMatchIsExactAddressAndOptionalRom : Prop :=
  ∀ (s : State) (e : TrapEntry) (addr : Va),
    (s.cfg.trapFilterByRom = false → (trapMatches s e addr = true ↔ e.address = addr)) ∧
    (s.cfg.trapFilterByRom = true →
      (trapMatches s e addr = true ↔ e.address = addr ∧ s.slots.s0.bank = e.owningRomBank))

/-- CPU_READ (42_cpu_bus_and_traps.md R115): the mapped byte, whatever the trap table holds, and nothing changes. -/
def Obligations.CpuReadRunsNoHandler : Prop :=
  ∀ (s : State) (addr : Va), s.booted = true → (s.slotOf addr).bank < s.cfg.numBanks →
    exec (.cpuRead addr) s = .next { s with result := .byte (Memory.read s.pool (s.physOf addr)) }

/-- CPU_WRITE (42_cpu_bus_and_traps.md R116) is WRITE_BYTE, and completes when the slot's bank exists. -/
def Obligations.CpuWriteIsWriteByte : Prop :=
  ∀ (s : State) (addr : Va) (v : Byte), s.booted = true → (s.slotOf addr).bank < s.cfg.numBanks →
    ∃ t, exec (.cpuWrite addr v) s = .next t ∧ exec (.writeByte addr v) s = .next t ∧
      t = { s with pool := t.pool, result := .unit } ∧
      ∀ a, Memory.read t.pool a =
        if a = s.physOf addr ∧ (s.slotOf addr).policy = .readWrite then v else Memory.read s.pool a

/-- PORT_IN (42_cpu_bus_and_traps.md R117): some byte the environment supplies, the banking ports included, and no state of the
block changes; the statement holds for every byte (log 10, log 11). -/
def Obligations.PortInChangesNoState : Prop :=
  ∀ (s : State) (port : Word), s.booted = true →
    ∃ b, exec (.portIn port) s = .next { s with result := .byte b, draws := s.draws + 1 }

/-- RESUME_AT (42_cpu_bus_and_traps.md R119): the CPU core's next-fetch address is assigned; the block is not touched. Inside a
fetch, whatever handlers run in it, the last call wins: no later action and no later entry calling RESUME_AT, the address is
the one it gave. With two handlers that do nothing else the fetch completes and still answers the byte at its own address. -/
def Obligations.ResumeAtAssignsTheNextFetchAddress : Prop :=
  (∀ (s : State) (x : Va), s.booted = true →
    exec (.resumeAt x) s = .next { s with cpu := { pc := x, regs := s.cpu.regs }, result := .unit }) ∧
  (∀ (s t w : State) (addr y : Va) (before more : List HandlerAction) (pre es : List TrapEntry) (e : TrapEntry),
    s.cfg.trapTable = pre ++ e :: es → dispatchTraps s addr pre = .next t → trapMatches t e addr = true →
    handlerActions t e.handler = before ++ .call (.resumeAt y) :: more →
    (∀ a ∈ more, actionIsResume a = false) → (∀ d ∈ es, d.address = addr → HandlerNeverResumes d.handler) →
    exec (.fetchOpcode addr) s = .next w → w.cpu.pc = y) ∧
  ∀ (s : State) (addr x y : Va) (d e : TrapEntry), s.booted = true →
    (s.slotOf addr).bank < s.cfg.numBanks → s.cfg.trapTable = [d, e] →
    d.handler = .script [.call (.resumeAt x)] → e.handler = .script [.call (.resumeAt y)] →
    trapMatches s d addr = true → trapMatches s e addr = true →
    exec (.fetchOpcode addr) s =
      .next { s with
        cpu := { pc := y, regs := s.cpu.regs }, result := .byte (Memory.read s.pool (s.physOf addr)) }

/-! ### The display decoder -/

/-- LINE_OFFSET (43_display.md R130): segment * 2048 + cell * 32 + line * 256 for y below 192, and no answer above. -/
def Obligations.LineOffsetFollowsTheFormula : Prop :=
  ∀ (s : State) (y : Nat),
    (y < 192 → exec (.lineOffset y) s =
      .next { s with result := .offset (y / 64 * 2048 + y % 64 / 8 * 32 + y % 64 % 8 * 256) }) ∧
    (192 ≤ y → exec (.lineOffset y) s = .refused .lineOutOfRange)

/-- The 192 lines tile the first 6144 bytes of the display bank (43_display.md R131 c): every byte belongs to exactly one line
and column. -/
def Obligations.LinesTileThePixelArea : Prop :=
  (∀ o, o < 6144 → ∃ y c, y < 192 ∧ c < 32 ∧ lineOffset y + c = o) ∧
  ∀ y c z d, y < 192 → c < 32 → z < 192 → d < 32 → lineOffset y + c = lineOffset z + d → y = z ∧ c = d

/-- ATTR_DECODE (43_display.md R134) as numbers: ink a[2:0] and paper a[5:3], both plus 8 * a[6], exchanged when a[7] and the
flash operand are 1. R134 marks the positions of paper and flash as not in the source (PRESUMED, log 19), and that of bright is
inferred from its example (DEDUCED, log 19). -/
def Obligations.AttrDecodeFollowsTheRule : Prop :=
  ∀ (s : State) (a : Byte) (f : Bool), ∃ ink paper : ColIdx,
    ink.toNat = a.toNat % 8 + 8 * (a.toNat / 64 % 2) ∧
    paper.toNat = a.toNat / 8 % 8 + 8 * (a.toNat / 64 % 2) ∧
    exec (.attrDecode a f) s =
      .next { s with
        result := if a.toNat / 128 % 2 = 1 ∧ f = true then .colours paper ink else .colours ink paper }

/-- Border rows (43_display.md R138): WIDTH entries of the border colour; no pool byte is read, and nothing but the frame
counter and flash of row 0 changes. -/
def Obligations.BorderRowIsTheBorderColour : Prop :=
  ∀ (s : State) (index : Nat), s.booted = true → s.powered = true → index < s.cfg.height →
    (index < s.cfg.topBorder ∨ s.cfg.topBorder + 192 ≤ index) →
    ∃ t, exec (.renderScanline index) s = .next t ∧
      t.result = .row (List.replicate (s.cfg.leftBorder + 512 + s.cfg.rightBorder) s.borderColor) ∧
      t = { s with frameCount := t.frameCount, flash := t.flash, result := t.result } ∧
      (index ≠ 0 → t.frameCount = s.frameCount ∧ t.flash = s.flash)

/-- Active rows (43_display.md R135, R136, R137, R139): entry 16c + j after the left border shows bit 7 - j/2 of the pixel byte of column
c in ink or paper, the borders show the border colour, the bytes come from DISPLAY_BANK, and the state is unchanged. -/
def Obligations.ActiveRowShowsThePixels : Prop :=
  ∀ (s : State) (index : Nat), s.booted = true → s.powered = true → s.cfg.Ok →
    s.cfg.topBorder ≤ index → index < s.cfg.topBorder + 192 →
    ∃ row, exec (.renderScanline index) s = .next { s with result := .row row } ∧
      row.length = s.cfg.leftBorder + 512 + s.cfg.rightBorder ∧
      (∀ k, k < s.cfg.leftBorder → row[k]? = some s.borderColor) ∧
      (∀ k, k < s.cfg.rightBorder → row[s.cfg.leftBorder + 512 + k]? = some s.borderColor) ∧
      ∀ c j, c < 32 → j < 16 →
        row[s.cfg.leftBorder + 16 * c + j]? =
          some
            (if (Memory.read s.pool
                  (s.cfg.displayBank * 16384 + (lineOffset (index - s.cfg.topBorder) + c))).getLsbD (7 - j / 2) then
              (attrDecode (Memory.read s.pool
                (s.cfg.displayBank * 16384 + (s.cfg.attrBase + (index - s.cfg.topBorder) / 8 * 32 + c))) s.flash).1
            else
              (attrDecode (Memory.read s.pool
                (s.cfg.displayBank * 16384 + (s.cfg.attrBase + (index - s.cfg.topBorder) / 8 * 32 + c))) s.flash).2)

/-- FrameTick (43_display.md R141): a powered call with index 0 advances the counter, and at 19 it wraps to 0 and flash toggles;
a call with another index, and a call while not powered (R140), change neither. -/
def Obligations.FrameTickCountsToNineteen : Prop :=
  (∀ s : State, s.booted = true → s.powered = true → s.cfg.Ok →
    ∃ t, exec (.renderScanline 0) s = .next t ∧
      t = { s with frameCount := t.frameCount, flash := t.flash, result := t.result } ∧
      (s.frameCount + 1 = 19 → t.frameCount = 0 ∧ t.flash = !s.flash) ∧
      (s.frameCount + 1 ≠ 19 → t.frameCount = s.frameCount + 1 ∧ t.flash = s.flash)) ∧
  ∀ (s t : State) (index : Nat), index ≠ 0 ∨ s.powered = false → exec (.renderScanline index) s = .next t →
    t.frameCount = s.frameCount ∧ t.flash = s.flash

/-- The flash period (43_display.md R142, a sentence the spec derives), for every interleaving of calls (70_reset_and_hazards.md
R208): after any calls that complete, n being the powered calls of RENDER_SCANLINE 0 since POWER_ON, flash = (n / 19) mod 2
and frame_count = n mod 19. And n boundaries with nothing between them do complete, from frame_count = 0 and flash = 0. -/
def Obligations.FlashPeriodIsNineteenFrames : Prop :=
  (∀ (calls : List Instr) (n : Nat) (s t : State),
    s.frameCount = n % 19 → (s.flash = true ↔ n / 19 % 2 = 1) → runCalls calls s = .next t →
    t.frameCount = boundariesAfter n s.powered calls % 19 ∧
    (t.flash = true ↔ boundariesAfter n s.powered calls / 19 % 2 = 1)) ∧
  ∀ (n : Nat) (s : State), s.booted = true → s.powered = true → s.cfg.Ok →
    s.frameCount = 0 → s.flash = false →
    ∃ t, frameBoundaries n s = .next t ∧ t.frameCount = n % 19 ∧ (t.flash = true ↔ n / 19 % 2 = 1)

/-- The power guard (43_display.md R140): while not powered RENDER_SCANLINE emits nothing and changes no state. -/
def Obligations.UnpoweredRenderEmitsNothing : Prop :=
  ∀ (s : State) (index : Nat), s.booted = true → s.powered = false → index < s.cfg.height →
    exec (.renderScanline index) s = .next { s with result := .noRow }

/-- A scanline index not below HEIGHT is refused, powered or not (43_display.md R137, 93_implementation_defined.md U8). -/
def Obligations.RenderOutOfRangeIsRefused : Prop :=
  ∀ (s : State) (index : Nat), s.booted = true → s.cfg.height ≤ index →
    exec (.renderScanline index) s = .refused .scanlineOutOfRange

/-- The decoder reads a fixed bank whatever the slot registers and the video bit hold (20_memory.md R43, 41_banking.md R103):
with another mapping and other banking state a rendered scanline is the same, and leaves them alone. -/
def Obligations.DisplayIgnoresTheMapping : Prop :=
  ∀ (s t : State) (index : Nat) (m : SlotMap) (e v : Bool) (r : Nat),
    exec (.renderScanline index) s = .next t →
    exec (.renderScanline index) { s with slots := m, bankingEnabled := e, videoSelect := v, currentRom := r } =
      .next { t with slots := m, bankingEnabled := e, videoSelect := v, currentRom := r }

/-- A row depends on no pool byte outside the display bank (43_display.md R139): two pools that agree on the bytes of
DISPLAY_BANK give the same row. -/
def Obligations.RowDependsOnlyOnTheDisplayBank : Prop :=
  ∀ (s t : State) (index : Nat) (m : Memory), s.cfg.Ok →
    (∀ o, o < 16384 → Memory.read m (s.cfg.displayBank * 16384 + o) =
      Memory.read s.pool (s.cfg.displayBank * 16384 + o)) →
    exec (.renderScanline index) s = .next t →
    exec (.renderScanline index) { s with pool := m } = .next { t with pool := m }

/-- SET_BORDER (43_display.md R144): a 4-bit colour is stored and nothing else changes, a colour of 16 or more is refused. -/
def Obligations.SetBorderStoresTheColour : Prop :=
  ∀ (s : State) (c : Nat), s.booted = true →
    (c < 16 → ∃ b : ColIdx, b.toNat = c ∧
      exec (.setBorder c) s = .next { s with borderColor := b, result := .unit }) ∧
    (16 ≤ c → exec (.setBorder c) s = .refused .colourOutOfRange)

/-! ### The tape entry points -/

/-- CREATE_HEADER_BLOCK (44_tape_interface.md R163, R161): the payload's 17 bytes are the type, the name padded with spaces to 10
bytes and the three words, low byte first; the call does exactly what WRITE_BLOCK of those bytes does, and completes when every slot's bank exists; a name longer than 10 bytes is refused. -/
def Obligations.HeaderIsTheSeventeenPayloadBytes : Prop :=
  ∀ (s : State) (t : Va) (kind : Byte) (name : List Byte) (len p1 p2 : Word), s.booted = true →
    (name.length ≤ 10 →
      (headerPayload kind name len p1 p2).length = 17 ∧
      (headerPayload kind name len p1 p2)[0]? = some kind ∧
      (∀ i, i < 10 → (headerPayload kind name len p1 p2)[1 + i]? = some (name.getD i 0x20#8)) ∧
      (headerPayload kind name len p1 p2)[11]? = some (BitVec.ofNat 8 (len.toNat % 256)) ∧
      (headerPayload kind name len p1 p2)[12]? = some (BitVec.ofNat 8 (len.toNat / 256)) ∧
      (headerPayload kind name len p1 p2)[13]? = some (BitVec.ofNat 8 (p1.toNat % 256)) ∧
      (headerPayload kind name len p1 p2)[14]? = some (BitVec.ofNat 8 (p1.toNat / 256)) ∧
      (headerPayload kind name len p1 p2)[15]? = some (BitVec.ofNat 8 (p2.toNat % 256)) ∧
      (headerPayload kind name len p1 p2)[16]? = some (BitVec.ofNat 8 (p2.toNat / 256)) ∧
      exec (.createHeaderBlock t kind name len p1 p2) s =
        exec (.writeBlock t (headerPayload kind name len p1 p2)) s ∧
      (s.BanksExist → ∃ u, exec (.createHeaderBlock t kind name len p1 p2) s = .next u)) ∧
    (10 < name.length → exec (.createHeaderBlock t kind name len p1 p2) s = .refused .nameTooLong)

/-- WRITE_BLOCK (44_tape_interface.md R164): byte i goes to t + i modulo 65536 through the slot it falls in; a byte that lands in a
ReadWrite slot and is not overwritten by a later byte reads back, and every pool byte no byte lands on is unchanged. -/
def Obligations.WriteBlockStoresAscendingBytes : Prop :=
  ∀ (s : State) (t : Va) (data : List Byte), s.booted = true → s.BanksExist →
    ∃ u, exec (.writeBlock t data) s = .next u ∧
      u = { s with pool := u.pool, result := .unit } ∧
      (∀ a, (∀ i, i < data.length → (s.slotOf (t + BitVec.ofNat 16 i)).policy = .readWrite →
          a ≠ s.physOf (t + BitVec.ofNat 16 i)) →
        Memory.read u.pool a = Memory.read s.pool a) ∧
      ∀ i v, data[i]? = some v → (s.slotOf (t + BitVec.ofNat 16 i)).policy = .readWrite →
        (∀ j, i < j → j < data.length → (s.slotOf (t + BitVec.ofNat 16 j)).policy = .readWrite →
          s.physOf (t + BitVec.ofNat 16 j) ≠ s.physOf (t + BitVec.ofNat 16 i)) →
        Memory.read u.pool (s.physOf (t + BitVec.ofNat 16 i)) = v

/-! ### Reset and power -/

/-- RESET (70_reset_and_hazards.md R190, R191): the boot mapping and the latch of the variant, every RAM byte 0, every ROM byte, the
decoder's state, the border colour and `powered` as before. -/
def Obligations.ResetRestoresTheBootMapping : Prop :=
  ∀ (s : State) (v : Variant), s.booted = true →
    ∃ t, exec (.reset v) s = .next t ∧
      t = { s with
        pool := t.pool
        slots :=
          { s0 := ⟨if v = .simple then s.cfg.numBanks - 2 else romAlt0 s.cfg, .readOnly⟩
            s1 := ⟨s.cfg.slot1Bank, .readWrite⟩
            s2 := ⟨s.cfg.slot2Bank, .readWrite⟩
            s3 := ⟨s.cfg.slot3ResetBank, .readWrite⟩ }
        bankingEnabled := decide (v = .banked)
        currentRom := if v = .simple then s.cfg.numBanks - 2 else romAlt0 s.cfg
        videoSelect := false
        result := .unit } ∧
      ∀ a, Memory.read t.pool a = if a < (s.cfg.numBanks - 4) * 16384 then 0#8 else Memory.read s.pool a

/-- POWER_ON (70_reset_and_hazards.md R192): from any state, before the first power-on too, flash 0, frame_count 0, powered 1 and what
RESET leaves; the border colour is any value (93_implementation_defined.md U9): the statement holds for every one. -/
def Obligations.PowerOnInitialisesTheBlock : Prop :=
  ∀ (s : State) (v : Variant),
    ∃ t, exec (.powerOn v) s = .next t ∧
      t = { s with
        pool := t.pool
        slots :=
          { s0 := ⟨if v = .simple then s.cfg.numBanks - 2 else romAlt0 s.cfg, .readOnly⟩
            s1 := ⟨s.cfg.slot1Bank, .readWrite⟩
            s2 := ⟨s.cfg.slot2Bank, .readWrite⟩
            s3 := ⟨s.cfg.slot3ResetBank, .readWrite⟩ }
        bankingEnabled := decide (v = .banked)
        currentRom := if v = .simple then s.cfg.numBanks - 2 else romAlt0 s.cfg
        videoSelect := false
        flash := false
        frameCount := 0
        powered := true
        booted := true
        borderColor := t.borderColor
        draws := s.draws + 1
        result := .unit } ∧
      ∀ a, Memory.read t.pool a = if a < (s.cfg.numBanks - 4) * 16384 then 0#8 else Memory.read s.pool a

/-- POWER_OFF (70_reset_and_hazards.md R193): powered becomes 0 and nothing else changes. -/
def Obligations.PowerOffClearsOnlyPowered : Prop :=
  ∀ s : State, s.booted = true → exec .powerOff s = .next { s with powered := false, result := .unit }

/-- Before POWER_ON the host loads ROM_IMAGE into the ROM banks (70_reset_and_hazards.md R197): the constructed pool holds the
image's bytes there, whatever the image (of an index it lists twice, the first entry: DESIGN CHOICE, log 5). That it reads 0
elsewhere is the model's placeholder and no rule of the spec, which gives no item a value before POWER_ON (logs 5 and 13).
Before the first POWER_ON (70_reset_and_hazards.md R198) every operation but POWER_ON is refused (LINE_OFFSET and ATTR_DECODE
are functions and no operations, R72), and the model's runs start from what POWER_ON gives: State.reset is
`POWER_ON banked` of the machine constructed with the default parameters (the variant and the parameters are log 4). -/
def Obligations.NothingRunsBeforePowerOn : Prop :=
  (∀ (c : Config) (a : Nat), Memory.read (construct c).pool a =
    if (c.numBanks - 4) * 16384 ≤ a ∧ a < c.numBanks * 16384 then Memory.read c.romImage a else 0#8) ∧
  (∀ (s : State) (i : Instr), s.booted = false →
    (∀ v, i ≠ .powerOn v) → (∀ y, i ≠ .lineOffset y) → (∀ a f, i ≠ .attrDecode a f) →
    exec i s = .refused .beforePowerOn) ∧
  exec (.powerOn .banked) (construct Config.default) = .next State.reset

/-- What reset leaves (95_test_vectors.md V-R2, 70_reset_and_hazards.md R192): the banked boot mapping under the default parameters of
00_scope.md R5 to R9, the latch open, the decoder cleared, powered, every RAM byte 0. The default parameters and the
blank ROM image are the model's choice of an OPEN parameter (log 4, log 5). -/
def Obligations.ResetStateHoldsTheSpecValues : Prop :=
  State.reset.slots = ⟨⟨8, .readOnly⟩, ⟨5, .readWrite⟩, ⟨2, .readWrite⟩, ⟨0, .readWrite⟩⟩ ∧
  State.reset.bankingEnabled = true ∧ State.reset.currentRom = 8 ∧ State.reset.videoSelect = false ∧
  State.reset.flash = false ∧ State.reset.frameCount = 0 ∧ State.reset.powered = true ∧
  State.reset.cfg.numBanks = 12 ∧
  ∀ a, a < 8 * 16384 → Memory.read State.reset.pool a = 0#8

/-! ### The whole machine -/

/-- A step runs the decoded call (70_reset_and_hazards.md R208): the oldest waiting record is decoded and its call runs in the state
without it; a record that is no call is refused by name; with no call waiting nothing happens (log 1). -/
def Obligations.StepRunsTheDecodedCall : Prop :=
  (∀ (s : State) (r : Record) (rest : List Record) (i : Instr),
    s.pending = r :: rest → decode r = .ok i → step s = exec i { s with pending := rest }) ∧
  (∀ (s : State) (r : Record) (rest : List Record) (e : DecodeError),
    s.pending = r :: rest → decode r = .error e → step s = .refused (.undecodable e)) ∧
  ∀ s : State, s.pending = [] → step s = .next s

/-- Every step keeps the invariant (10_state.md R22, R28; 20_memory.md R41): admissible parameters, existing banks in every slot
register, a canonical pool inside the arena, a counter below 19. -/
def Obligations.EveryStepKeepsTheInvariant : Prop :=
  ∀ s t : State, s.Inv → step s = .next t → t.Inv

/-- The invariant holds after reset. -/
def Obligations.ResetMeetsTheInvariant : Prop := State.reset.Inv

/-- The block raises no fault (60_exceptions.md R170): from a state that keeps the invariant no step faults, whatever the call and
whatever the handlers do. -/
def Obligations.NoStepFromAGoodStateFaults : Prop :=
  ∀ s : State, s.Inv → noFault (step s)

/-- The slot invariant (10_state.md R36, 41_banking.md R104): in a state with the mapping of variant v, every step that is no REMAP,
with handlers that call no REMAP, leaves the mapping of v, or of the variant a RESET or POWER_ON names. -/
def Obligations.StepsWithoutRemapKeepTheSlotLayout : Prop :=
  ∀ (s t : State) (v : Variant), s.cfg.Ok → s.SlotLayout v → TrapsKeepMapping s.cfg → nextIsNoRemap s →
    step s = .next t →
    t.SlotLayout v ∨
      ∃ w r u, takeCall s = some (r, u) ∧ (decode r = .ok (.reset w) ∨ decode r = .ok (.powerOn w)) ∧ t.SlotLayout w

/-- ROM contents (70_reset_and_hazards.md R195, 60_exceptions.md R180): under the slot invariant, with no REMAP, no step changes a ROM
byte, handlers, tape entry points, RESET and POWER_ON included. -/
def Obligations.StepsWithoutRemapNeverChangeRom : Prop :=
  ∀ (s t : State) (v : Variant), s.cfg.Ok → s.SlotLayout v → TrapsKeepMapping s.cfg → nextIsNoRemap s →
    step s = .next t →
    ∀ a, (s.cfg.numBanks - 4) * 16384 ≤ a → Memory.read t.pool a = Memory.read s.pool a

/-- Every operation is total on its domain (00_scope.md R15, 60_exceptions.md R170): after power-on, under the invariant, a call with
operands in its domain completes, a fetch provided its handlers keep to R113. -/
def Obligations.EveryCallInItsDomainCompletes : Prop :=
  ∀ (s : State) (i : Instr), s.booted = true → s.Inv → i.wellFormed s.cfg = true →
    (∀ addr, i = .fetchOpcode addr → TrapsSafe s.cfg addr) → ∃ t, exec i s = .next t

/-- The parameters are constants of the instance (10_state.md R20, R32; 00_scope.md R9; their place in the state is log 3): no step
writes them, the trap table among them. -/
def Obligations.NoStepWritesTheParameters : Prop :=
  ∀ s t : State, step s = .next t → t.cfg = s.cfg

/-! ### What a handler's actions do -/

/-- A handler's actions (42_cpu_bus_and_traps.md R113, R120; 60_exceptions.md R175): a call it may make does exactly what the
operation does; a register change assigns the CPU core's registers, and a change of its own or the host's state assigns the
host component, each nothing else (these two kinds of action are the model's form, log 7); actions run one after another,
each in the state the one before left. A handler program, the configured form of a handler that reads state and acts on it
(log 7), runs as it is written: each call with the operands its state gives, or refused when a byte or word operand does not fit
its width (60_exceptions.md R172); each part after the one before it, the branch its value selects, the body as often as its
value says. That a store of a number above 255 in a register or host byte is refused too is the model's choice (log 7). So
the handler of V-T2 adds 1 to the byte it reads and stores it. -/
def Obligations.HandlerActionsHaveTheirEffect : Prop :=
  (∀ (s : State) (i : Instr), s.booted = true → handlerMayCall i = true → runAction s (.call i) = exec i s) ∧
  (∀ (s : State) (regs : List Byte),
    runAction s (.setCpuRegs regs) = .next { s with cpu := { pc := s.cpu.pc, regs := regs } }) ∧
  (∀ (s : State) (host : List Byte), runAction s (.setHost host) = .next { s with host := host }) ∧
  (∀ s : State, runActions s [] = .next s) ∧
  (∀ (s t : State) (a : HandlerAction) (more : List HandlerAction), runAction s a = .next t →
    runActions s (a :: more) = runActions t more) ∧
  (∀ (s : State) (code : HandlerCode),
    runHandler s (.program code) = runCode code { s with draws := s.draws + 1, result := .unit }) ∧
  (∀ s : State, runCode .skip s = .next s) ∧
  (∀ (s : State) (a : HandlerAction), runCode (.act a) s = runAction s a) ∧
  (∀ (s : State) (c : HandlerCall) (i : Instr), evalCall s c = .ok i → runCode (.call c) s = runAction s (.call i)) ∧
  (∀ (s : State) (c : HandlerCall) (e : DecodeError), evalCall s c = .error e →
    runCode (.call c) s = .refused .operandOutOfRange) ∧
  (∀ (s : State) (va v : HandlerValue), evalCall s (.writeByte va v) =
    if evalValue s va < 65536 ∧ evalValue s v < 256 then
      .ok (.writeByte (BitVec.ofNat 16 (evalValue s va)) (BitVec.ofNat 8 (evalValue s v)))
    else .error .operandTooWide) ∧
  (∀ (s : State) (va w : HandlerValue), evalCall s (.writeWord va w) =
    if evalValue s va < 65536 ∧ evalValue s w < 65536 then
      .ok (.writeWord (BitVec.ofNat 16 (evalValue s va)) (BitVec.ofNat 16 (evalValue s w)))
    else .error .operandTooWide) ∧
  (∀ (s : State) (i b : HandlerValue) (p : HandlerPolicy),
    evalCall s (.remap i b p) = .ok (.remap (evalValue s i) (evalValue s b) (evalPolicy s p))) ∧
  (∀ (s : State) (k v : HandlerValue), runCode (.setReg k v) s =
    if evalValue s v < 256 then
      .next { s with cpu := { pc := s.cpu.pc, regs := s.cpu.regs.set (evalValue s k) (BitVec.ofNat 8 (evalValue s v)) } }
    else .refused .operandOutOfRange) ∧
  (∀ (s : State) (k v : HandlerValue), runCode (.setHost k v) s =
    if evalValue s v < 256 then .next { s with host := s.host.set (evalValue s k) (BitVec.ofNat 8 (evalValue s v)) }
    else .refused .operandOutOfRange) ∧
  (∀ (s : State) (v : HandlerValue), runCode (.pushHost v) s =
    if evalValue s v < 256 then .next { s with host := s.host ++ [BitVec.ofNat 8 (evalValue s v)] }
    else .refused .operandOutOfRange) ∧
  (∀ (s : State) (p q : HandlerCode), runCode (.seq p q) s = followedBy (runCode p s) (runCode q)) ∧
  (∀ (s : State) (v : HandlerValue) (p q : HandlerCode),
    runCode (.ifElse v p q) s = if evalValue s v = 0 then runCode q s else runCode p s) ∧
  (∀ (s : State) (v : HandlerValue) (p : HandlerCode), evalValue s v = 0 → runCode (.times v p) s = .next s) ∧
  (∀ (s : State) (v : HandlerValue) (p : HandlerCode) (n : Nat), evalValue s v = n + 1 →
    runCode (.times v p) s = followedBy (runCode p s) (runCode (.times (.lit n) p))) ∧
  ∀ (s : State) (va : Va), (s.slotOf va).bank < s.cfg.numBanks → (s.slotOf va).policy = .readWrite →
    ∃ t, runHandler s (.program (incrementAt va)) = .next t ∧
      t = { s with pool := t.pool, draws := s.draws + 1, result := .unit } ∧
      ∀ a, Memory.read t.pool a = if a = s.physOf va then Memory.read s.pool a + 1#8 else Memory.read s.pool a
end

