-- ==== Sys2Proof/Laws/Memory.lean ====
section
/-! SUPPORT. The laws of the pool: read after write, and that every operation keeps the canonical form. None of the reading
laws needs the canonical form. -/

namespace Sys2Proof.Machine

theorem Memory.read_erase (m : Memory) (a x : Nat) :
    Memory.read (Memory.erase m a) x = if x = a then Memory.unlisted x else Memory.read m x := by
  induction m with
  | nil => simp [Memory.erase, Memory.read]
  | cons c m ih =>
    obtain ⟨b, w⟩ := c
    simp only [Memory.erase] at ih
    simp only [Memory.erase, List.filter_cons, bne_iff_ne, ne_eq]
    by_cases hb : b = a
    · subst hb
      simp only [not_true_eq_false, if_false, ih, Memory.read]
      split <;> simp_all
    · simp only [hb, not_false_eq_true, if_true, Memory.read, ih]
      by_cases hx : x = b
      · subst hx; simp [hb]
      · simp [hx]

theorem Memory.read_insert (a : Nat) (v : Byte) (m : Memory) (x : Nat) (h : ∀ c ∈ m, c.1 ≠ a) :
    Memory.read (Memory.insert a v m) x = if x = a then v else Memory.read m x := by
  induction m with
  | nil => simp [Memory.insert, Memory.read]
  | cons c m ih =>
    obtain ⟨b, w⟩ := c
    have hb : b ≠ a := h (b, w) (by simp)
    have hm := ih (fun c hc => h c (by simp [hc]))
    simp only [Memory.insert]
    split
    · simp [Memory.read]
    · simp only [Memory.read, hm]
      by_cases hx : x = b
      · subst hx; simp [hb]
      · simp [hx]

theorem Memory.erase_fresh (m : Memory) (a : Nat) : ∀ c ∈ Memory.erase m a, c.1 ≠ a := by
  intro c hc
  simpa [Memory.erase] using (List.mem_filter.mp hc).2

/-- Read after write, for every pool. -/
@[simp] theorem Memory.read_write (m : Memory) (a : Nat) (v : Byte) (x : Nat) :
    Memory.read (Memory.write m a v) x = if x = a then v else Memory.read m x := by
  simp only [Memory.write]
  split
  · next h => rw [Memory.read_erase]; split <;> simp_all
  · rw [Memory.read_insert _ _ _ _ (Memory.erase_fresh m a), Memory.read_erase]
    split <;> simp_all

/-- Zeroing reads as zero below the bound and as before from it on. -/
@[simp] theorem Memory.read_zeroBelow (m : Memory) (top x : Nat) :
    Memory.read (Memory.zeroBelow m top) x = if x < top then 0#8 else Memory.read m x := by
  induction m with
  | nil => simp [Memory.zeroBelow, Memory.read, Memory.unlisted]
  | cons c m ih =>
    obtain ⟨b, w⟩ := c
    simp only [Memory.zeroBelow] at ih
    simp only [Memory.zeroBelow, List.filter_cons, decide_eq_true_eq]
    by_cases hb : top ≤ b
    · simp only [hb, if_true, Memory.read, ih]
      by_cases hx : x = b
      · subst hx; simp [Nat.not_lt.mpr hb]
      · simp [hx]
    · simp only [hb, if_false, ih, Memory.read]
      split
      · rfl
      · next h => simp [show x ≠ b by omega]

/-! ### The canonical form -/

theorem Memory.wf_filter {m : Memory} (h : Memory.Wf m) (p : Host.Cell → Bool) : Memory.Wf (m.filter p) :=
  ⟨h.1.filter p, fun c hc => h.2 c (List.mem_filter.mp hc).1⟩

theorem Memory.mem_insert {a : Nat} {v : Byte} {m : Memory} {c : Host.Cell} :
    c ∈ Memory.insert a v m ↔ c = (a, v) ∨ c ∈ m := by
  induction m with
  | nil => simp [Memory.insert]
  | cons d m ih =>
    simp only [Memory.insert]
    split
    · simp
    · simp only [List.mem_cons, ih]
      tauto

theorem Memory.pairwise_insert {a : Nat} {v : Byte} {m : Memory}
    (hm : m.Pairwise (fun c d => c.1 < d.1)) (ha : ∀ c ∈ m, c.1 ≠ a) :
    (Memory.insert a v m).Pairwise (fun c d => c.1 < d.1) := by
  induction m with
  | nil => simp [Memory.insert]
  | cons d m ih =>
    rw [List.pairwise_cons] at hm
    have hd : d.1 ≠ a := ha d (by simp)
    simp only [Memory.insert]
    split
    · next h =>
      rw [List.pairwise_cons]
      refine ⟨?_, List.pairwise_cons.mpr hm⟩
      intro c hc
      rcases List.mem_cons.mp hc with rfl | hc
      · exact h
      · exact Nat.lt_trans h (hm.1 c hc)
    · next h =>
      rw [List.pairwise_cons]
      refine ⟨?_, ih hm.2 (fun c hc => ha c (by simp [hc]))⟩
      intro c hc
      rcases Memory.mem_insert.mp hc with rfl | hc
      · show d.1 < a
        have : ¬ a < d.1 := h
        omega
      · exact hm.1 c hc

theorem Memory.wf_write {m : Memory} (h : Memory.Wf m) (a : Nat) (v : Byte) : Memory.Wf (Memory.write m a v) := by
  simp only [Memory.write]
  have he : Memory.Wf (Memory.erase m a) := Memory.wf_filter h _
  split
  · exact he
  · next hv =>
    refine ⟨Memory.pairwise_insert he.1 (Memory.erase_fresh m a), ?_⟩
    intro c hc
    rcases Memory.mem_insert.mp hc with rfl | hc
    · exact hv
    · exact he.2 c hc

theorem Memory.wf_zeroBelow {m : Memory} (h : Memory.Wf m) (top : Nat) : Memory.Wf (Memory.zeroBelow m top) :=
  Memory.wf_filter h _

/-- A store lists nothing new but its own index. -/
theorem Memory.mem_write {m : Memory} {a : Nat} {v : Byte} {c : Host.Cell} (h : c ∈ Memory.write m a v) :
    c.1 = a ∨ c ∈ m := by
  simp only [Memory.write] at h
  split at h
  · exact .inr (List.mem_filter.mp h).1
  · rcases Memory.mem_insert.mp h with rfl | h
    · exact .inl rfl
    · exact .inr (List.mem_filter.mp h).1

theorem Memory.mem_zeroBelow {m : Memory} {top : Nat} {c : Host.Cell} (h : c ∈ Memory.zeroBelow m top) : c ∈ m :=
  (List.mem_filter.mp h).1

/-- Below its first index a pool reads as unlisted. -/
theorem Memory.read_of_lt {m : Memory} {x : Nat} (h : ∀ c ∈ m, x < c.1) : Memory.read m x = Memory.unlisted x := by
  induction m with
  | nil => rfl
  | cons c m ih =>
    obtain ⟨b, w⟩ := c
    have hb : x < b := h (b, w) (by simp)
    simp only [Memory.read, show x ≠ b by omega, if_false]
    exact ih (fun c hc => h c (by simp [hc]))

/-- Two canonical pools that read alike everywhere are the same list: equal memories are equal data. -/
theorem Memory.ext_of_wf {m n : Memory} (hm : Memory.Wf m) (hn : Memory.Wf n)
    (h : ∀ x, Memory.read m x = Memory.read n x) : m = n := by
  induction m generalizing n with
  | nil =>
    cases n with
    | nil => rfl
    | cons d n =>
      obtain ⟨b, w⟩ := d
      have hb := h b
      simp only [Memory.read, if_true] at hb
      exact absurd hb.symm (hn.2 (b, w) (by simp))
  | cons c m ih =>
    obtain ⟨a, v⟩ := c
    have hm' := List.pairwise_cons.mp hm.1
    cases n with
    | nil =>
      have ha := h a
      simp only [Memory.read, if_true] at ha
      exact absurd ha (hm.2 (a, v) (by simp))
    | cons d n =>
      obtain ⟨b, w⟩ := d
      have hn' := List.pairwise_cons.mp hn.1
      have hva : v ≠ Memory.unlisted a := hm.2 (a, v) (by simp)
      have hwb : w ≠ Memory.unlisted b := hn.2 (b, w) (by simp)
      have hab : a = b := by
        rcases Nat.lt_trichotomy a b with hlt | heq | hgt
        · have := h a
          rw [Memory.read_of_lt (m := (b, w) :: n)] at this
          · simp [Memory.read] at this; exact absurd this hva
          · intro c hc
            rcases List.mem_cons.mp hc with rfl | hc
            · exact hlt
            · exact Nat.lt_trans hlt (hn'.1 c hc)
        · exact heq
        · have := h b
          rw [Memory.read_of_lt (m := (a, v) :: m)] at this
          · simp [Memory.read] at this; exact absurd this.symm hwb
          · intro c hc
            rcases List.mem_cons.mp hc with rfl | hc
            · exact hgt
            · exact Nat.lt_trans hgt (hm'.1 c hc)
      subst hab
      have hvw : v = w := by simpa [Memory.read] using h a
      subst hvw
      congr 1
      refine ih ⟨hm'.2, fun c hc => hm.2 c (by simp [hc])⟩ ⟨hn'.2, fun c hc => hn.2 c (by simp [hc])⟩ ?_
      intro x
      by_cases hx : x = a
      · subst hx
        rw [Memory.read_of_lt (fun c hc => hm'.1 c hc), Memory.read_of_lt (fun c hc => hn'.1 c hc)]
      · simpa [Memory.read, hx] using h x

end Sys2Proof.Machine
end

