-- ==== Sys2Proof/Laws/State.lean ====
section
/-! SUPPORT. Each named update of the state, field by field, so that no proof unfolds a record update. -/

namespace Sys2Proof.Machine

variable (s : State)

@[simp] theorem State.returning_cfg (r : Result) : (s.returning r).cfg = s.cfg := rfl
@[simp] theorem State.returning_pool (r : Result) : (s.returning r).pool = s.pool := rfl
@[simp] theorem State.returning_slots (r : Result) : (s.returning r).slots = s.slots := rfl
@[simp] theorem State.returning_bankingEnabled (r : Result) : (s.returning r).bankingEnabled = s.bankingEnabled := rfl
@[simp] theorem State.returning_currentRom (r : Result) : (s.returning r).currentRom = s.currentRom := rfl
@[simp] theorem State.returning_videoSelect (r : Result) : (s.returning r).videoSelect = s.videoSelect := rfl
@[simp] theorem State.returning_flash (r : Result) : (s.returning r).flash = s.flash := rfl
@[simp] theorem State.returning_frameCount (r : Result) : (s.returning r).frameCount = s.frameCount := rfl
@[simp] theorem State.returning_borderColor (r : Result) : (s.returning r).borderColor = s.borderColor := rfl
@[simp] theorem State.returning_powered (r : Result) : (s.returning r).powered = s.powered := rfl
@[simp] theorem State.returning_cpu (r : Result) : (s.returning r).cpu = s.cpu := rfl
@[simp] theorem State.returning_host (r : Result) : (s.returning r).host = s.host := rfl
@[simp] theorem State.returning_booted (r : Result) : (s.returning r).booted = s.booted := rfl
@[simp] theorem State.returning_pending (r : Result) : (s.returning r).pending = s.pending := rfl
@[simp] theorem State.returning_result (r : Result) : (s.returning r).result = r := rfl
@[simp] theorem State.returning_draws (r : Result) : (s.returning r).draws = s.draws := rfl

@[simp] theorem State.withPool_cfg (m : Memory) : (s.withPool m).cfg = s.cfg := rfl
@[simp] theorem State.withPool_pool (m : Memory) : (s.withPool m).pool = m := rfl
@[simp] theorem State.withPool_slots (m : Memory) : (s.withPool m).slots = s.slots := rfl
@[simp] theorem State.withPool_bankingEnabled (m : Memory) : (s.withPool m).bankingEnabled = s.bankingEnabled := rfl
@[simp] theorem State.withPool_currentRom (m : Memory) : (s.withPool m).currentRom = s.currentRom := rfl
@[simp] theorem State.withPool_videoSelect (m : Memory) : (s.withPool m).videoSelect = s.videoSelect := rfl
@[simp] theorem State.withPool_flash (m : Memory) : (s.withPool m).flash = s.flash := rfl
@[simp] theorem State.withPool_frameCount (m : Memory) : (s.withPool m).frameCount = s.frameCount := rfl
@[simp] theorem State.withPool_borderColor (m : Memory) : (s.withPool m).borderColor = s.borderColor := rfl
@[simp] theorem State.withPool_powered (m : Memory) : (s.withPool m).powered = s.powered := rfl
@[simp] theorem State.withPool_cpu (m : Memory) : (s.withPool m).cpu = s.cpu := rfl
@[simp] theorem State.withPool_host (m : Memory) : (s.withPool m).host = s.host := rfl
@[simp] theorem State.withPool_booted (m : Memory) : (s.withPool m).booted = s.booted := rfl
@[simp] theorem State.withPool_pending (m : Memory) : (s.withPool m).pending = s.pending := rfl
@[simp] theorem State.withPool_result (m : Memory) : (s.withPool m).result = s.result := rfl
@[simp] theorem State.withPool_draws (m : Memory) : (s.withPool m).draws = s.draws := rfl

@[simp] theorem State.drawn_cfg : (s.drawn).cfg = s.cfg := rfl
@[simp] theorem State.drawn_pool : (s.drawn).pool = s.pool := rfl
@[simp] theorem State.drawn_slots : (s.drawn).slots = s.slots := rfl
@[simp] theorem State.drawn_bankingEnabled : (s.drawn).bankingEnabled = s.bankingEnabled := rfl
@[simp] theorem State.drawn_currentRom : (s.drawn).currentRom = s.currentRom := rfl
@[simp] theorem State.drawn_videoSelect : (s.drawn).videoSelect = s.videoSelect := rfl
@[simp] theorem State.drawn_flash : (s.drawn).flash = s.flash := rfl
@[simp] theorem State.drawn_frameCount : (s.drawn).frameCount = s.frameCount := rfl
@[simp] theorem State.drawn_borderColor : (s.drawn).borderColor = s.borderColor := rfl
@[simp] theorem State.drawn_powered : (s.drawn).powered = s.powered := rfl
@[simp] theorem State.drawn_cpu : (s.drawn).cpu = s.cpu := rfl
@[simp] theorem State.drawn_host : (s.drawn).host = s.host := rfl
@[simp] theorem State.drawn_booted : (s.drawn).booted = s.booted := rfl
@[simp] theorem State.drawn_pending : (s.drawn).pending = s.pending := rfl
@[simp] theorem State.drawn_result : (s.drawn).result = s.result := rfl
@[simp] theorem State.drawn_draws : (s.drawn).draws = s.draws + 1 := rfl

@[simp] theorem resumeAt_cfg (x : Va) : (resumeAt s x).cfg = s.cfg := rfl
@[simp] theorem resumeAt_pool (x : Va) : (resumeAt s x).pool = s.pool := rfl
@[simp] theorem resumeAt_slots (x : Va) : (resumeAt s x).slots = s.slots := rfl
@[simp] theorem resumeAt_bankingEnabled (x : Va) : (resumeAt s x).bankingEnabled = s.bankingEnabled := rfl
@[simp] theorem resumeAt_currentRom (x : Va) : (resumeAt s x).currentRom = s.currentRom := rfl
@[simp] theorem resumeAt_videoSelect (x : Va) : (resumeAt s x).videoSelect = s.videoSelect := rfl
@[simp] theorem resumeAt_flash (x : Va) : (resumeAt s x).flash = s.flash := rfl
@[simp] theorem resumeAt_frameCount (x : Va) : (resumeAt s x).frameCount = s.frameCount := rfl
@[simp] theorem resumeAt_borderColor (x : Va) : (resumeAt s x).borderColor = s.borderColor := rfl
@[simp] theorem resumeAt_powered (x : Va) : (resumeAt s x).powered = s.powered := rfl
@[simp] theorem resumeAt_cpu (x : Va) : (resumeAt s x).cpu = { s.cpu with pc := x } := rfl
@[simp] theorem resumeAt_host (x : Va) : (resumeAt s x).host = s.host := rfl
@[simp] theorem resumeAt_booted (x : Va) : (resumeAt s x).booted = s.booted := rfl
@[simp] theorem resumeAt_pending (x : Va) : (resumeAt s x).pending = s.pending := rfl
@[simp] theorem resumeAt_result (x : Va) : (resumeAt s x).result = s.result := rfl
@[simp] theorem resumeAt_draws (x : Va) : (resumeAt s x).draws = s.draws := rfl

@[simp] theorem remap_cfg (i : BitVec 2) (b : Nat) (p : Policy) : (remap s i b p).1.cfg = s.cfg := rfl
@[simp] theorem remap_pool (i : BitVec 2) (b : Nat) (p : Policy) : (remap s i b p).1.pool = s.pool := rfl
@[simp] theorem remap_slots (i : BitVec 2) (b : Nat) (p : Policy) : (remap s i b p).1.slots = s.slots.set i ⟨b, p⟩ := rfl
@[simp] theorem remap_bankingEnabled (i : BitVec 2) (b : Nat) (p : Policy) : (remap s i b p).1.bankingEnabled = s.bankingEnabled := rfl
@[simp] theorem remap_currentRom (i : BitVec 2) (b : Nat) (p : Policy) : (remap s i b p).1.currentRom = s.currentRom := rfl
@[simp] theorem remap_videoSelect (i : BitVec 2) (b : Nat) (p : Policy) : (remap s i b p).1.videoSelect = s.videoSelect := rfl
@[simp] theorem remap_flash (i : BitVec 2) (b : Nat) (p : Policy) : (remap s i b p).1.flash = s.flash := rfl
@[simp] theorem remap_frameCount (i : BitVec 2) (b : Nat) (p : Policy) : (remap s i b p).1.frameCount = s.frameCount := rfl
@[simp] theorem remap_borderColor (i : BitVec 2) (b : Nat) (p : Policy) : (remap s i b p).1.borderColor = s.borderColor := rfl
@[simp] theorem remap_powered (i : BitVec 2) (b : Nat) (p : Policy) : (remap s i b p).1.powered = s.powered := rfl
@[simp] theorem remap_cpu (i : BitVec 2) (b : Nat) (p : Policy) : (remap s i b p).1.cpu = s.cpu := rfl
@[simp] theorem remap_host (i : BitVec 2) (b : Nat) (p : Policy) : (remap s i b p).1.host = s.host := rfl
@[simp] theorem remap_booted (i : BitVec 2) (b : Nat) (p : Policy) : (remap s i b p).1.booted = s.booted := rfl
@[simp] theorem remap_pending (i : BitVec 2) (b : Nat) (p : Policy) : (remap s i b p).1.pending = s.pending := rfl
@[simp] theorem remap_result (i : BitVec 2) (b : Nat) (p : Policy) : (remap s i b p).1.result = s.result := rfl
@[simp] theorem remap_draws (i : BitVec 2) (b : Nat) (p : Policy) : (remap s i b p).1.draws = s.draws := rfl

/-- Writing back what a named update leaves gives the update as a record update. -/
theorem State.returning_eq (r : Result) : s.returning r = { s with result := r } := rfl

theorem State.withPool_eq (m : Memory) : s.withPool m = { s with pool := m } := rfl

/-! The slot registers: `set` and `get`. -/

theorem SlotMap.get_set (m : SlotMap) (i j : BitVec 2) (x : Slot) :
    (m.set i x).get j = if j = i then x else m.get j := by
  revert i j
  simp only [SlotMap.set, SlotMap.get]
  intro i j
  have hi : i = 0#2 ∨ i = 1#2 ∨ i = 2#2 ∨ i = 3#2 := by revert i; decide
  have hj : j = 0#2 ∨ j = 1#2 ∨ j = 2#2 ∨ j = 3#2 := by revert j; decide
  rcases hi with rfl | rfl | rfl | rfl <;> rcases hj with rfl | rfl | rfl | rfl <;> simp

@[simp] theorem SlotMap.set_zero (m : SlotMap) (x : Slot) : m.set 0#2 x = { m with s0 := x } := rfl

@[simp] theorem SlotMap.set_three (m : SlotMap) (x : Slot) : m.set 3#2 x = { m with s3 := x } := rfl

end Sys2Proof.Machine
end

