-- ==== Sys2Proof/Laws/Ops.lean ====
section
/-! SUPPORT. For each shared operation, once, what it answers and everything it can do. -/

namespace Sys2Proof.Machine

/-! ### Guards and answers -/

theorem whenBooted_of {s : State} (h : s.booted = true) (k : Host.Outcome State Fault Refusal) :
    whenBooted s k = k := by simp [whenBooted, h]

/-- A guarded operation answers a next state only after power-on. -/
theorem whenBooted_next {s t : State} {k : Host.Outcome State Fault Refusal} (h : whenBooted s k = .next t) :
    s.booted = true ∧ k = .next t := by
  simp only [whenBooted] at h
  split at h
  · next hb => exact ⟨hb, h⟩
  · cases h

theorem whenBooted_noFault {s : State} {k : Host.Outcome State Fault Refusal} (h : noFault k) :
    noFault (whenBooted s k) := by
  simp only [whenBooted]
  split
  · exact h
  · trivial

theorem answerState_next {e : Except Fault State} {t : State} (h : answerState e = .next t) :
    ∃ u, e = .ok u ∧ t = u.returning .unit := by
  cases e with
  | ok u => exact ⟨u, rfl, by simpa [answerState] using h.symm⟩
  | error f => cases h

@[simp] theorem answerState_ok (u : State) : answerState (.ok u) = .next (u.returning .unit) := rfl

/-! ### Slots and addresses -/

theorem BanksExist.get {s : State} (h : s.BanksExist) (i : BitVec 2) : (s.slots.get i).bank < s.cfg.numBanks := by
  simp only [SlotMap.get]
  split
  · exact h.1
  · split
    · exact h.2.1
    · split
      · exact h.2.2.1
      · exact h.2.2.2

theorem BanksExist.slotOf {s : State} (h : s.BanksExist) (va : Va) : (s.slotOf va).bank < s.cfg.numBanks :=
  BanksExist.get h _

theorem BanksExist.set {s : State} (h : s.BanksExist) (i : BitVec 2) {b : Nat} {p : Policy}
    (hb : b < s.cfg.numBanks) : (remap s i b p).1.BanksExist := by
  obtain ⟨h0, h1, h2, h3⟩ := h
  simp only [State.BanksExist, remap_slots, remap_cfg, SlotMap.set]
  split
  · exact ⟨hb, h1, h2, h3⟩
  · split
    · exact ⟨h0, hb, h2, h3⟩
    · split
      · exact ⟨h0, h1, hb, h3⟩
      · exact ⟨h0, h1, h2, hb⟩

/-- An address translates into the arena when its slot's bank exists. -/
theorem physOf_lt {s : State} {va : Va} (h : (s.slotOf va).bank < s.cfg.numBanks) :
    s.physOf va < s.cfg.numBanks * 16384 := by
  have := (vaOffset va).isLt
  simp only [State.physOf, phys]
  omega

/-! ### Byte accesses -/

theorem readByte_eq (s : State) (va : Va) :
    readByte s va =
      if (s.slotOf va).bank < s.cfg.numBanks then .ok (Memory.read s.pool (s.physOf va)) else .error .outsidePool := by
  by_cases hb : (s.slotOf va).bank < s.cfg.numBanks
  · simp only [readByte, translateVa, checkBank, hb, if_true]; rfl
  · simp only [readByte, translateVa, checkBank, hb, if_false]; rfl

theorem readByte_ok {s : State} {va : Va} (h : (s.slotOf va).bank < s.cfg.numBanks) :
    readByte s va = .ok (Memory.read s.pool (s.physOf va)) := by simp [readByte_eq, h]

theorem writeByte_readOnly {s : State} {va : Va} (h : (s.slotOf va).policy = .readOnly) (v : Byte) :
    writeByte s va v = .ok s := by
  simp only [writeByte, translateVa, h]
  rfl

theorem writeByte_readWrite {s : State} {va : Va} (h : (s.slotOf va).policy = .readWrite)
    (hb : (s.slotOf va).bank < s.cfg.numBanks) (v : Byte) :
    writeByte s va v = .ok (s.withPool (Memory.write s.pool (s.physOf va) v)) := by
  simp only [writeByte, translateVa, h, checkBank, hb, if_true]
  rfl

/-- Everything a byte write can do. -/
theorem writeByte_cases {s t : State} {va : Va} {v : Byte} (h : writeByte s va v = .ok t) :
    (s.slotOf va).policy = .readOnly ∧ t = s ∨
    (s.slotOf va).policy = .readWrite ∧ (s.slotOf va).bank < s.cfg.numBanks ∧
      t = s.withPool (Memory.write s.pool (s.physOf va) v) := by
  cases hp : (s.slotOf va).policy with
  | readOnly => rw [writeByte_readOnly hp] at h; exact .inl ⟨rfl, by simpa using h.symm⟩
  | readWrite =>
    by_cases hb : (s.slotOf va).bank < s.cfg.numBanks
    · rw [writeByte_readWrite hp hb] at h
      exact .inr ⟨rfl, hb, by simpa using h.symm⟩
    · simp [writeByte, translateVa, hp, checkBank, hb, bind, Except.bind] at h

/-! ### Stores: what a sequence of byte writes leaves alone -/

/-- From `s` to `t` only pool bytes that some ReadWrite slot shows may have changed. -/
structure StoresOnly (s t : State) : Prop where
  eq     : t = s.withPool t.pool
  wf     : Memory.Wf s.pool → Memory.Wf t.pool
  inPool : ∀ c ∈ t.pool, c ∈ s.pool ∨ c.1 < s.cfg.numBanks * 16384
  frame  : ∀ a, (∀ va, (s.slotOf va).policy = .readWrite → a ≠ s.physOf va) →
    Memory.read t.pool a = Memory.read s.pool a

theorem StoresOnly.refl (s : State) : StoresOnly s s := ⟨rfl, id, fun _ h => .inl h, fun _ _ => rfl⟩

theorem StoresOnly.cfg {s t : State} (h : StoresOnly s t) : t.cfg = s.cfg := by rw [h.eq]; rfl

theorem StoresOnly.slots {s t : State} (h : StoresOnly s t) : t.slots = s.slots := by rw [h.eq]; rfl

theorem StoresOnly.slotOf {s t : State} (h : StoresOnly s t) (va : Va) : t.slotOf va = s.slotOf va := by
  rw [h.eq]; rfl

theorem StoresOnly.physOf {s t : State} (h : StoresOnly s t) (va : Va) : t.physOf va = s.physOf va := by
  rw [h.eq]; rfl

theorem StoresOnly.banksExist {s t : State} (h : StoresOnly s t) (hb : s.BanksExist) : t.BanksExist := by
  rw [h.eq]; exact hb

theorem StoresOnly.trans {s t u : State} (h : StoresOnly s t) (k : StoresOnly t u) : StoresOnly s u := by
  refine ⟨?_, k.wf ∘ h.wf, ?_, ?_⟩
  · rw [k.eq, h.eq]; rfl
  · intro c hc
    rcases k.inPool c hc with hc | hc
    · exact h.inPool c hc
    · exact .inr (by rwa [h.cfg] at hc)
  · intro a ha
    rw [k.frame a (fun va hva => by rw [h.slotOf] at hva; rw [h.physOf]; exact ha va hva), h.frame a ha]

theorem writeByte_storesOnly {s t : State} {va : Va} {v : Byte} (h : writeByte s va v = .ok t) : StoresOnly s t := by
  rcases writeByte_cases h with ⟨-, rfl⟩ | ⟨hp, hb, rfl⟩
  · exact .refl _
  · refine ⟨rfl, fun hw => Memory.wf_write hw _ _, ?_, ?_⟩
    · intro c hc
      rcases Memory.mem_write hc with hc | hc
      · exact .inr (hc ▸ physOf_lt hb)
      · exact .inl hc
    · intro a ha
      have := ha va hp
      simp [this]

/-- The pieces of a sequenced access that succeeded. -/
theorem Except.bind_ok_iff {ε α β : Type} {e : Except ε α} {f : α → Except ε β} {b : β} :
    (e >>= f) = .ok b ↔ ∃ a, e = .ok a ∧ f a = .ok b := by
  cases e with
  | ok a => simp [bind, Except.bind]
  | error x => simp [bind, Except.bind]

theorem writeBlock_storesOnly {s t : State} {va : Va} {data : List Byte} (h : writeBlock s va data = .ok t) :
    StoresOnly s t := by
  induction data generalizing s va with
  | nil => cases h; exact .refl _
  | cons v vs ih =>
    simp only [writeBlock, Except.bind_ok_iff] at h
    obtain ⟨u, hu, ht⟩ := h
    exact (writeByte_storesOnly hu).trans (ih ht)

theorem writeWord_storesOnly {s t : State} {va : Va} {w : Word} (h : writeWord s va w = .ok t) : StoresOnly s t := by
  simp only [writeWord, Except.bind_ok_iff] at h
  obtain ⟨u, hu, ht⟩ := h
  exact (writeByte_storesOnly hu).trans (writeByte_storesOnly ht)

theorem createHeader_storesOnly {s t : State} {va : Va} {kind : Byte} {name : List Byte} {len p1 p2 : Word}
    (h : createHeader s va kind name len p1 p2 = .ok t) : StoresOnly s t := by
  simp only [createHeader, Except.bind_ok_iff] at h
  obtain ⟨s1, h1, s2, h2, s3, h3, s4, h4, h5⟩ := h
  exact (writeByte_storesOnly h1).trans ((writeBlock_storesOnly h2).trans ((writeWord_storesOnly h3).trans
    ((writeWord_storesOnly h4).trans (writeWord_storesOnly h5))))

/-! ### Completion of the accesses when the banks exist -/

theorem writeByte_total {s : State} (h : s.BanksExist) (va : Va) (v : Byte) : ∃ t, writeByte s va v = .ok t := by
  cases hp : (s.slotOf va).policy with
  | readOnly => exact ⟨_, writeByte_readOnly hp v⟩
  | readWrite => exact ⟨_, writeByte_readWrite hp (BanksExist.slotOf h va) v⟩

theorem readWord_ok {s : State} {va : Va} (h : (s.slotOf va).bank < s.cfg.numBanks)
    (h' : (s.slotOf (va + 1#16)).bank < s.cfg.numBanks) :
    readWord s va =
      .ok (wordOf (Memory.read s.pool (s.physOf (va + 1#16))) (Memory.read s.pool (s.physOf va))) := by
  simp only [readWord, readByte_ok h, readByte_ok h']
  rfl

theorem writeBlock_total {s : State} (h : s.BanksExist) (va : Va) (data : List Byte) :
    ∃ t, writeBlock s va data = .ok t := by
  induction data generalizing s va with
  | nil => exact ⟨s, rfl⟩
  | cons v vs ih =>
    obtain ⟨u, hu⟩ := writeByte_total h va v
    obtain ⟨t, ht⟩ := ih ((writeByte_storesOnly hu).banksExist h) (va + 1#16)
    exact ⟨t, by simp only [writeBlock, Except.bind_ok_iff]; exact ⟨u, hu, ht⟩⟩

theorem writeWord_total {s : State} (h : s.BanksExist) (va : Va) (w : Word) : ∃ t, writeWord s va w = .ok t := by
  obtain ⟨u, hu⟩ := writeByte_total h va (lowByte w)
  obtain ⟨t, ht⟩ := writeByte_total ((writeByte_storesOnly hu).banksExist h) (va + 1#16) (highByte w)
  exact ⟨t, by simp only [writeWord, Except.bind_ok_iff]; exact ⟨u, hu, ht⟩⟩

theorem createHeader_total {s : State} (h : s.BanksExist) (va : Va) (kind : Byte) (name : List Byte)
    (len p1 p2 : Word) : ∃ t, createHeader s va kind name len p1 p2 = .ok t := by
  obtain ⟨s1, h1⟩ := writeByte_total h va kind
  have e1 := (writeByte_storesOnly h1).banksExist h
  obtain ⟨s2, h2⟩ := writeBlock_total e1 (va + 1#16) ((List.range 10).map (nameByte name))
  have e2 := (writeBlock_storesOnly h2).banksExist e1
  obtain ⟨s3, h3⟩ := writeWord_total e2 (va + 11) len
  have e3 := (writeWord_storesOnly h3).banksExist e2
  obtain ⟨s4, h4⟩ := writeWord_total e3 (va + 13) p1
  have e4 := (writeWord_storesOnly h4).banksExist e3
  obtain ⟨s5, h5⟩ := writeWord_total e4 (va + 15) p2
  exact ⟨s5, by simp only [createHeader, Except.bind_ok_iff]; exact ⟨s1, h1, s2, h2, s3, h3, s4, h4, h5⟩⟩

/-- A word written is two bytes written in a row. -/
theorem writeWord_eq_writeBlock (s : State) (va : Va) (w : Word) :
    writeWord s va w = writeBlock s va [lowByte w, highByte w] := by
  simp [writeWord, writeBlock]

theorem writeBlock_append (s : State) (va : Va) (xs ys : List Byte) :
    writeBlock s va (xs ++ ys) =
      (writeBlock s va xs >>= fun t => writeBlock t (va + BitVec.ofNat 16 xs.length) ys) := by
  induction xs generalizing s va with
  | nil => simp [writeBlock]
  | cons x xs ih =>
    have hva : va + 1#16 + BitVec.ofNat 16 xs.length = va + BitVec.ofNat 16 (xs.length + 1) := by
      apply BitVec.eq_of_toNat_eq
      simp only [BitVec.toNat_add, BitVec.toNat_ofNat]
      have : (1#16).toNat = 1 := rfl
      omega
    simp only [writeBlock, List.cons_append, List.length_cons, ih, hva, bind_assoc]

/-! ### REMAP -/

theorem answerRemap_cases {s t : State} {i b : Nat} {p : Policy} (h : answerRemap s i b p = .next t) :
    i < 4 ∧ b < s.cfg.numBanks ∧
      t = (remap s (BitVec.ofNat 2 i) b p).1.returning (.bank (s.slots.get (BitVec.ofNat 2 i)).bank) := by
  simp only [answerRemap] at h
  split at h
  · next hi =>
    split at h
    · next hb => exact ⟨hi, hb, by simpa [remap] using h.symm⟩
    · cases h
  · cases h

theorem answerRemap_ok {s : State} {i b : Nat} (p : Policy) (hi : i < 4) (hb : b < s.cfg.numBanks) :
    answerRemap s i b p =
      .next ((remap s (BitVec.ofNat 2 i) b p).1.returning (.bank (s.slots.get (BitVec.ofNat 2 i)).bank)) := by
  simp [answerRemap, hi, hb, remap]

/-! ### Trap handlers -/

/-- Everything a handler's action can do: store, remap one slot to an existing bank, or change the CPU core's and the host's
components; a result may be left behind. -/
inductive ActionEffect (s : State) : HandlerAction → State → Prop where
  | stores {i : Instr} {u : State} (r : Result) (h : StoresOnly s u) : ActionEffect s (.call i) (u.returning r)
  | remaps {k b : Nat} {p : Policy} (r : Result) (hb : b < s.cfg.numBanks) :
      ActionEffect s (.call (.remap k b p)) ((remap s (BitVec.ofNat 2 k) b p).1.returning r)
  | resumes (x : Va) : ActionEffect s (.call (.resumeAt x)) ((resumeAt s x).returning .unit)
  | setsRegs (regs : List Byte) : ActionEffect s (.setCpuRegs regs) { s with cpu := { s.cpu with regs := regs } }
  | setsHost (host : List Byte) : ActionEffect s (.setHost host) { s with host := host }

theorem answerByte_next {s t : State} {va : Va} (h : answerByte s va = .next t) :
    (s.slotOf va).bank < s.cfg.numBanks ∧ t = s.returning (.byte (Memory.read s.pool (s.physOf va))) := by
  rw [answerByte, readByte_eq] at h
  by_cases hb : (s.slotOf va).bank < s.cfg.numBanks
  · simp only [hb, if_true] at h
    exact ⟨hb, by simpa using h.symm⟩
  · simp [hb] at h

theorem answerByte_ok {s : State} {va : Va} (h : (s.slotOf va).bank < s.cfg.numBanks) :
    answerByte s va = .next (s.returning (.byte (Memory.read s.pool (s.physOf va)))) := by
  simp [answerByte, readByte_ok h]

theorem answerWord_next {s t : State} {va : Va} (h : answerWord s va = .next t) : ∃ r, t = s.returning r := by
  simp only [answerWord] at h
  split at h
  · exact ⟨_, by simpa using h.symm⟩
  · cases h

theorem answerHeader_next {s t : State} {va : Va} {kind : Byte} {name : List Byte} {len p1 p2 : Word}
    (h : answerHeader s va kind name len p1 p2 = .next t) : ∃ u, StoresOnly s u ∧ t = u.returning .unit := by
  simp only [answerHeader] at h
  split at h
  · obtain ⟨u, hu, rfl⟩ := answerState_next h
    exact ⟨u, createHeader_storesOnly hu, rfl⟩
  · cases h

theorem runAction_effect {s t : State} {a : HandlerAction} (h : runAction s a = .next t) : ActionEffect s a t := by
  cases a with
  | setCpuRegs regs => cases h; exact .setsRegs regs
  | setHost host => cases h; exact .setsHost host
  | outOfRange => cases h
  | call i =>
    simp only [runAction] at h
    cases i <;> simp only [handlerCall] at h
    case translate va => cases h; exact .stores _ (.refl s)
    case readByte va => obtain ⟨-, rfl⟩ := answerByte_next h; exact .stores _ (.refl s)
    case writeByte va v =>
      obtain ⟨u, hu, rfl⟩ := answerState_next h; exact .stores _ (writeByte_storesOnly hu)
    case readWord va => obtain ⟨r, rfl⟩ := answerWord_next h; exact .stores _ (.refl s)
    case writeWord va w =>
      obtain ⟨u, hu, rfl⟩ := answerState_next h; exact .stores _ (writeWord_storesOnly hu)
    case remap k b p => obtain ⟨-, hb, rfl⟩ := answerRemap_cases h; exact .remaps _ hb
    case resumeAt x => cases h; exact .resumes x
    case createHeaderBlock => obtain ⟨u, hu, rfl⟩ := answerHeader_next h; exact .stores _ hu
    case writeBlock va data =>
      obtain ⟨u, hu, rfl⟩ := answerState_next h; exact .stores _ (writeBlock_storesOnly hu)
    all_goals cases h

theorem runActions_keeps {P : State → Prop} {ok : HandlerAction → Prop}
    (hact : ∀ s a t, ok a → ActionEffect s a t → P s → P t) {as : List HandlerAction} (hall : ∀ a ∈ as, ok a)
    {s t : State} (h : runActions s as = .next t) (hs : P s) : P t := by
  induction as generalizing s with
  | nil => cases h; exact hs
  | cons a as ih =>
    simp only [runActions] at h
    split at h
    · next u hu =>
      exact ih (fun b hb => hall b (by simp [hb])) h
        (hact s a u (hall a (by simp)) (runAction_effect hu) hs)
    · cases h
    · cases h

/-- A computed operand that fits is its number. -/
theorem evalBits_fits {w : Nat} {s : State} {v : HandlerValue} (h : evalValue s v < 2 ^ w) :
    evalBits w s v = .ok (BitVec.ofNat w (evalValue s v)) := if_pos h

/-- A computed operand that does not fit is refused. -/
theorem evalBits_tooWide {w : Nat} {s : State} {v : HandlerValue} (h : ¬ evalValue s v < 2 ^ w) :
    evalBits w s v = .error .operandTooWide := if_neg h

@[simp] theorem actionOf_ok {α : Type} (x : α) (action : α → HandlerAction) : actionOf (.ok x) action = action x := rfl

@[simp] theorem actionOf_error {α : Type} (e : DecodeError) (action : α → HandlerAction) :
    actionOf (.error e) action = .outOfRange := rfl

/-- Every action a program can take has the property, read off its text. -/
def CodeAll (ok : HandlerAction → Prop) : HandlerCode → Prop
  | .skip => True
  | .act a => ok a
  | .call c => ∀ s, ok (actionOf (evalCall s c) .call)
  | .setReg _ v => ∀ s, ∀ regs : Byte → List Byte, ok (actionOf (evalBits 8 s v) fun b => .setCpuRegs (regs b))
  | .setHost _ v => ∀ s, ∀ host : Byte → List Byte, ok (actionOf (evalBits 8 s v) fun b => .setHost (host b))
  | .pushHost v => ∀ s, ∀ host : Byte → List Byte, ok (actionOf (evalBits 8 s v) fun b => .setHost (host b))
  | .seq p q => CodeAll ok p ∧ CodeAll ok q
  | .ifElse _ p q => CodeAll ok p ∧ CodeAll ok q
  | .times _ p => CodeAll ok p

theorem thenActions_all {ok : HandlerAction → Prop} {s : State} {first : List HandlerAction}
    {next : State → List HandlerAction} (hf : ∀ a ∈ first, ok a) (hn : ∀ t, ∀ a ∈ next t, ok a) :
    ∀ a ∈ thenActions s first next, ok a := by
  simp only [thenActions]
  split
  · intro a ha
    rcases List.mem_append.mp ha with ha | ha
    · exact hf a ha
    · exact hn _ a ha
  · exact hf
  · exact hf

theorem repeatActions_all {ok : HandlerAction → Prop} {body : State → List HandlerAction}
    (hb : ∀ t, ∀ a ∈ body t, ok a) (n : Nat) : ∀ s, ∀ a ∈ repeatActions body n s, ok a := by
  induction n with
  | zero => intro s a ha; cases ha
  | succ n ih => exact fun s => thenActions_all (hb s) ih

theorem codeActions_all {ok : HandlerAction → Prop} {code : HandlerCode} (h : CodeAll ok code) :
    ∀ s, ∀ a ∈ codeActions code s, ok a := by
  induction code with
  | skip => intro s a ha; cases ha
  | act a => intro s b hb; cases List.mem_singleton.mp hb; exact h
  | call c => intro s b hb; cases List.mem_singleton.mp hb; exact h s
  | setReg k v => intro s b hb; cases List.mem_singleton.mp hb; exact h s _
  | setHost k v => intro s b hb; cases List.mem_singleton.mp hb; exact h s _
  | pushHost v => intro s b hb; cases List.mem_singleton.mp hb; exact h s _
  | seq p q hp hq => exact fun s => thenActions_all (hp h.1 s) (hq h.2)
  | ifElse c p q hp hq =>
    intro s
    simp only [codeActions]
    split
    · exact hq h.2 s
    · exact hp h.1 s
  | times n p hp => exact fun s => repeatActions_all (hp h) _ s

/-- A program is a handler with the property when its text has it. -/
theorem handlerAll_program {ok : HandlerAction → Prop} {code : HandlerCode} (h : CodeAll ok code) :
    HandlerAll ok (.program code) := fun _ => codeActions_all h _

/-- Before its first action a handler's run touches at most the model's own `draws` and `result`. -/
theorem handlerStart_frame (s : State) (hd : Handler) :
    handlerStart s hd = { s with draws := (handlerStart s hd).draws, result := (handlerStart s hd).result } := by
  cases hd <;> rfl

theorem runHandler_keeps {P : State → Prop} {ok : HandlerAction → Prop}
    (hact : ∀ s a t, ok a → ActionEffect s a t → P s → P t)
    (hstart : ∀ s d r, P s → P { s with draws := d, result := r })
    {hd : Handler} (hall : HandlerAll ok hd) {s t : State} (h : runHandler s hd = .next t) (hs : P s) : P t := by
  refine runActions_keeps hact (hall s) h ?_
  rw [handlerStart_frame]
  exact hstart _ _ _ hs

/-- What every permitted action keeps, the whole dispatch keeps. -/
theorem dispatchTraps_keeps {P : State → Prop} {ok : HandlerAction → Prop}
    (hact : ∀ s a t, ok a → ActionEffect s a t → P s → P t)
    (hstart : ∀ s d r, P s → P { s with draws := d, result := r }) {addr : Va}
    {es : List TrapEntry} (hall : ∀ e ∈ es, e.address = addr → HandlerAll ok e.handler)
    {s t : State} (h : dispatchTraps s addr es = .next t) (hs : P s) : P t := by
  induction es generalizing s with
  | nil => cases h; exact hs
  | cons e es ih =>
    have ih' := fun {s} => @ih (fun e he => hall e (by simp [he])) s
    simp only [dispatchTraps] at h
    split at h
    · next hm =>
      have ha : e.address = addr := by
        simp only [trapMatches, Bool.and_eq_true, beq_iff_eq] at hm
        exact hm.1
      split at h
      · next u hu => exact ih' h (runHandler_keeps hact hstart (hall e (by simp) ha) hu hs)
      · cases h
      · cases h
    · exact ih' h hs

/-- Actions after actions. -/
theorem runActions_append {s t : State} {as : List HandlerAction} (h : runActions s as = .next t)
    (bs : List HandlerAction) : runActions s (as ++ bs) = runActions t bs := by
  induction as generalizing s with
  | nil => cases h; rfl
  | cons a as ih =>
    simp only [runActions] at h
    simp only [List.cons_append, runActions]
    split at h
    · exact ih h
    · cases h
    · cases h

/-- Actions that follow others in the state they leave run after them. -/
theorem runActions_thenActions (s : State) (first : List HandlerAction) (next : State → List HandlerAction) :
    runActions s (thenActions s first next) = followedBy (runActions s first) (fun t => runActions t (next t)) := by
  simp only [thenActions]
  split
  · next t h => rw [runActions_append h, h]; rfl
  · next f h => rw [h]; rfl
  · next r h => rw [h]; rfl

/-- The scan of a table after the scan of the entries before it. -/
theorem dispatchTraps_append {s t : State} {addr : Va} {pre : List TrapEntry}
    (h : dispatchTraps s addr pre = .next t) (es : List TrapEntry) :
    dispatchTraps s addr (pre ++ es) = dispatchTraps t addr es := by
  induction pre generalizing s with
  | nil => cases h; rfl
  | cons e pre ih =>
    simp only [dispatchTraps] at h
    simp only [List.cons_append, dispatchTraps]
    split at h
    · next hm =>
      rw [if_pos hm]
      split at h
      · exact ih h
      · cases h
      · cases h
    · next hm => rw [if_neg hm]; exact ih h

/-- Everything a fetch can do: the dispatch, then a byte read in the state it leaves. -/
theorem fetchOpcode_next {s t : State} {addr : Va} (h : fetchOpcode s addr = .next t) :
    ∃ u, dispatchTraps s addr s.cfg.trapTable = .next u ∧ (u.slotOf addr).bank < u.cfg.numBanks ∧
      t = u.returning (.byte (Memory.read u.pool (u.physOf addr))) := by
  simp only [fetchOpcode] at h
  split at h
  · next u hu => obtain ⟨hb, rfl⟩ := answerByte_next h; exact ⟨u, hu, hb, rfl⟩
  · cases h
  · cases h

/-! ### Handlers never fault when the banks exist -/

theorem ActionEffect.cfg {s t : State} {a : HandlerAction} (h : ActionEffect s a t) : t.cfg = s.cfg := by
  cases h with
  | stores r h => exact h.cfg
  | remaps r hb => rfl
  | resumes x => rfl
  | setsRegs regs => rfl
  | setsHost host => rfl

theorem ActionEffect.banksExist {s t : State} {a : HandlerAction} (h : ActionEffect s a t) (hb : s.BanksExist) :
    t.BanksExist := by
  cases h with
  | stores r h => exact h.banksExist hb
  | remaps r h => exact BanksExist.set hb _ h
  | resumes x => exact hb
  | setsRegs regs => exact hb
  | setsHost host => exact hb

theorem runAction_noFault {s : State} (h : s.BanksExist) (a : HandlerAction) : noFault (runAction s a) := by
  have store : ∀ e : Except Fault State, (∃ u, e = .ok u) → noFault (answerState e) := by
    rintro _ ⟨u, rfl⟩; trivial
  cases a with
  | setCpuRegs regs => trivial
  | setHost host => trivial
  | outOfRange => trivial
  | call i =>
    cases i <;> simp only [runAction, handlerCall] <;> try trivial
    case readByte va => rw [answerByte_ok (BanksExist.slotOf h va)]; trivial
    case writeByte va v => exact store _ (writeByte_total h va v)
    case readWord va =>
      rw [answerWord, readWord_ok (BanksExist.slotOf h va) (BanksExist.slotOf h (va + 1#16))]; trivial
    case writeWord va w => exact store _ (writeWord_total h va w)
    case remap k b p =>
      simp only [answerRemap]; split
      · split <;> trivial
      · trivial
    case createHeaderBlock =>
      simp only [answerHeader]; split
      · exact store _ (createHeader_total h ..)
      · trivial
    case writeBlock va data => exact store _ (writeBlock_total h va data)

theorem runActions_noFault {s : State} (h : s.BanksExist) (as : List HandlerAction) : noFault (runActions s as) := by
  induction as generalizing s with
  | nil => trivial
  | cons a as ih =>
    have ha := runAction_noFault h a
    simp only [runActions]
    split
    · next u hu => exact ih ((runAction_effect hu).banksExist h)
    · next f hf => rw [hf] at ha; exact ha
    · trivial

theorem runHandler_noFault {s : State} (h : s.BanksExist) (hd : Handler) : noFault (runHandler s hd) := by
  refine runActions_noFault ?_ _
  rw [handlerStart_frame]
  exact h

theorem dispatchTraps_noFault {s : State} (h : s.BanksExist) (addr : Va) (es : List TrapEntry) :
    noFault (dispatchTraps s addr es) := by
  induction es generalizing s with
  | nil => trivial
  | cons e es ih =>
    have hh := runHandler_noFault h e.handler
    simp only [dispatchTraps]
    split
    · split
      · next u hu =>
        refine ih (runHandler_keeps (P := State.BanksExist) (ok := fun _ => True)
          (fun s a t _ he hs => he.banksExist hs) (fun s _ _ hs => hs) (fun _ _ _ => trivial) hu h)
      · next f hf => rw [hf] at hh; exact hh
      · trivial
    · exact ih h

/-! ### The banking controller and the decoder -/

/-- Everything BANK_WRITE can do. -/
theorem bankWrite_cases (s : State) (v : Byte) :
    s.bankingEnabled = false ∧ bankWrite s v = s ∨
    s.bankingEnabled = true ∧
      bankWrite s v =
        { s with
          slots := { s.slots with s3 := ⟨(bankRam v).toNat, .readWrite⟩, s0 := ⟨romOfBit s.cfg (bankRom v), .readOnly⟩ }
          currentRom := romOfBit s.cfg (bankRom v)
          videoSelect := bankVid v
          bankingEnabled := !bankLock v } := by
  cases h : s.bankingEnabled with
  | false => exact .inl ⟨rfl, by simp [bankWrite, h]⟩
  | true => exact .inr ⟨rfl, by simp [bankWrite, h, remap, latchAfter]⟩

/-- Everything FrameTick can do. -/
theorem frameTick_cases (s : State) :
    s.frameCount + 1 = 19 ∧ frameTick s = { s with frameCount := 0, flash := !s.flash } ∨
    s.frameCount + 1 ≠ 19 ∧ frameTick s = { s with frameCount := s.frameCount + 1 } := by
  by_cases h : s.frameCount + 1 = 19
  · exact .inl ⟨h, by simp [frameTick, h]⟩
  · exact .inr ⟨h, by simp [frameTick, h]⟩

/-- Everything a rendered scanline can do: at most the frame tick of index 0, and a result. -/
theorem renderScanline_next {s t : State} {index : Nat} (h : renderScanline s index = .next t) :
    index < s.cfg.height ∧
      (s.powered = false ∧ t = s.returning .noRow ∨
        s.powered = true ∧ ∃ row, renderRow (tickedFor s index) index = .ok row ∧
          t = (tickedFor s index).returning (.row row)) := by
  simp only [renderScanline] at h
  split at h
  · next hi =>
    refine ⟨hi, ?_⟩
    split at h
    · next hp =>
      split at h
      · next row hrow => exact .inr ⟨hp, row, hrow, by simpa using h.symm⟩
      · cases h
    · next hp => exact .inl ⟨by simpa using hp, by simpa using h.symm⟩
  · cases h

/-- FrameTick touches the counter and the flash bit only. -/
theorem tickedFor_frame (s : State) (index : Nat) :
    tickedFor s index =
      { s with frameCount := (tickedFor s index).frameCount, flash := (tickedFor s index).flash } := by
  simp only [tickedFor]
  split
  · rcases frameTick_cases s with ⟨-, h⟩ | ⟨-, h⟩ <;> rw [h]
  · rfl

/-- A scanline in range renders while powered when its row can be read. -/
theorem renderScanline_ok {s : State} {index : Nat} {row : List ColIdx} (hi : index < s.cfg.height)
    (hp : s.powered = true) (hr : renderRow (tickedFor s index) index = .ok row) :
    renderScanline s index = .next ((tickedFor s index).returning (.row row)) := by
  simp only [renderScanline, hi, hp, if_true, hr]

/-- A border row is the border colour. -/
theorem renderRow_border {s : State} {index : Nat} (h : isBorderRow s.cfg index = true) :
    renderRow s index = .ok (borderRow s) := by
  simp only [renderRow, h, if_true]
  rfl

/-- An active row can be read when the display bank exists. -/
theorem renderRow_active {s : State} {index : Nat} (h : isBorderRow s.cfg index = false)
    (hb : s.cfg.displayBank < s.cfg.numBanks) :
    renderRow s index = .ok (activeRow s (index - s.cfg.topBorder)) := by
  simp only [renderRow, h, checkBank, hb, if_true]
  rfl

/-! ### The pool before and after POWER_ON -/

/-- One byte loaded: its index reads as the byte when it lies in the ROM banks, every other index as before. -/
theorem read_loadRomByte (c : Config) (cell : Host.Cell) (m : Memory) (a : Nat) :
    Memory.read (loadRomByte c cell m) a =
      if a = cell.1 ∧ romStart c ≤ a ∧ a < c.numBanks * 16384 then cell.2 else Memory.read m a := by
  simp only [loadRomByte]
  by_cases ha : a = cell.1
  · subst ha
    split <;> simp [*]
  · split <;> simp [ha]

theorem loadRomByte_wf (c : Config) {m : Memory} (h : Memory.Wf m) (cell : Host.Cell) :
    Memory.Wf (loadRomByte c cell m) := by
  simp only [loadRomByte]
  split
  · exact Memory.wf_write h _ _
  · exact h

/-- The ROM load leaves a pool in canonical form, whatever the image. -/
theorem construct_wf (c : Config) : Memory.Wf (construct c).pool := by
  show Memory.Wf (c.romImage.foldr (loadRomByte c) [])
  induction c.romImage with
  | nil => exact ⟨.nil, fun _ h => (by cases h)⟩
  | cons cell cells ih => exact loadRomByte_wf c ih cell

theorem reset_wf : Memory.Wf State.reset.pool := by decide

end Sys2Proof.Machine
end

