-- ==== Sys2Proof/Laws/PerInstr.lean ====
section
/-! SUPPORT. The shape of every call's record (log 2): its selector, a place in the list of 30_encoding.md R72, then at
least as many operands as R72 gives the call (a name or a byte sequence adds its bytes). -/

namespace Sys2Proof.Laws.RecordShape

/-- How many operands rule R72 gives a call, a trailing name or byte sequence not counted. -/
def operandCount : Instr → Nat
  | .translate _ => 1
  | .readByte _ => 1
  | .writeByte _ _ => 2
  | .readWord _ => 1
  | .writeWord _ _ => 2
  | .remap _ _ _ => 3
  | .reset _ => 1
  | .powerOn _ => 1
  | .powerOff => 0
  | .bankWrite _ => 1
  | .fetchOpcode _ => 1
  | .cpuRead _ => 1
  | .cpuWrite _ _ => 2
  | .portIn _ => 1
  | .portOut _ _ => 2
  | .resumeAt _ => 1
  | .renderScanline _ => 1
  | .setBorder _ => 1
  | .createHeaderBlock _ _ _ _ _ _ => 5
  | .writeBlock _ _ => 1
  | .lineOffset _ => 1
  | .attrDecode _ _ => 2

/-- The shape of a call's record. -/
def Statement (i : Instr) : Prop :=
  (encode i).head? = some (selector i) ∧ selector i < 22 ∧ operandCount i < (encode i).length

/-- The numbers in the shape are compared by evaluation. -/
theorem of_ble {i : Instr} (hs : Nat.blt (selector i) 22 = true)
    (ho : Nat.blt (operandCount i) (encode i).length = true) : Statement i :=
  ⟨rfl, by simpa using hs, by simpa using ho⟩

theorem translate (va : Va) : Statement (.translate va) := of_ble rfl rfl

theorem readByte (va : Va) : Statement (.readByte va) := of_ble rfl rfl

theorem writeByte (va : Va) (v : Byte) : Statement (.writeByte va v) := of_ble rfl rfl

theorem readWord (va : Va) : Statement (.readWord va) := of_ble rfl rfl

theorem writeWord (va : Va) (w : Word) : Statement (.writeWord va w) := of_ble rfl rfl

theorem remap (s b : Nat) (p : Policy) : Statement (.remap s b p) := of_ble rfl rfl

theorem reset (v : Variant) : Statement (.reset v) := of_ble rfl rfl

theorem powerOn (v : Variant) : Statement (.powerOn v) := of_ble rfl rfl

theorem powerOff : Statement .powerOff := of_ble rfl rfl

theorem bankWrite (v : Byte) : Statement (.bankWrite v) := of_ble rfl rfl

theorem fetchOpcode (addr : Va) : Statement (.fetchOpcode addr) := of_ble rfl rfl

theorem cpuRead (addr : Va) : Statement (.cpuRead addr) := of_ble rfl rfl

theorem cpuWrite (addr : Va) (v : Byte) : Statement (.cpuWrite addr v) := of_ble rfl rfl

theorem portIn (port : Word) : Statement (.portIn port) := of_ble rfl rfl

theorem portOut (port : Word) (v : Byte) : Statement (.portOut port v) := of_ble rfl rfl

theorem resumeAt (x : Va) : Statement (.resumeAt x) := of_ble rfl rfl

theorem renderScanline (index : Nat) : Statement (.renderScanline index) := of_ble rfl rfl

theorem setBorder (colour : Nat) : Statement (.setBorder colour) := of_ble rfl rfl

theorem createHeaderBlock (t : Va) (kind : Byte) (name : List Byte) (dataLen p1 p2 : Word) :
    Statement (.createHeaderBlock t kind name dataLen p1 p2) :=
  ⟨rfl, by simp [selector], by simp [operandCount, encode, encodeOperands, byteCodes]⟩

theorem writeBlock (t : Va) (data : List Byte) : Statement (.writeBlock t data) :=
  ⟨rfl, by simp [selector], by simp [operandCount, encode, encodeOperands, byteCodes]⟩

theorem lineOffset (y : Nat) : Statement (.lineOffset y) := of_ble rfl rfl

theorem attrDecode (attr : Byte) (flash : Bool) : Statement (.attrDecode attr flash) :=
  of_ble rfl rfl

end Sys2Proof.Laws.RecordShape
end

