-- ==== Sys2Proof/Tests/Slice0.lean ====
section
/-! SUPPORT. Tests of the model on small states. Expected values are from the vectors of 95_test_vectors.md (named in each
comment) or read by hand from the encodings of 30_encoding.md; the witness theorems at the end show, for every obligation
with hypotheses, a concrete state and operands that meet them together. -/

namespace Sys2Proof.Tests

open Sys2Proof Sys2Proof.Machine

/-! ### Helpers -/

/-- The state after `POWER_ON banked` (V-R2), with the border colour set to 7. -/
def banked : State := { State.reset with borderColor := 7#4 }

/-- The state after `POWER_ON simple` (V-R1), with the border colour set to 7. -/
def simple : State :=
  { banked with slots := { banked.slots with s0 := ⟨10, .readOnly⟩ }, bankingEnabled := false, currentRom := 10 }

/-- Bank 5 in slots 1 and 3, as BANK_WRITE 0x05 leaves it. -/
def aliased : State := { banked with slots := { banked.slots with s3 := ⟨5, .readWrite⟩ } }

/-- A state with another trap table. -/
def withTraps (s : State) (es : List TrapEntry) : State := { s with cfg := { s.cfg with trapTable := es } }

/-- A trap whose handler does the given actions. -/
def trapAt (addr : Va) (actions : List HandlerAction) : TrapEntry :=
  { address := addr, handler := .script actions, owningRomBank := 10 }

/-- What the outcome returns to the caller. -/
def resultOf : Host.Outcome State Fault Refusal → Option Result
  | .next s => some s.result
  | .fault _ => none
  | .refused _ => none

/-- The state of the outcome. -/
def after : Host.Outcome State Fault Refusal → Option State
  | .next s => some s
  | .fault _ => none
  | .refused _ => none

/-- The refusal of the outcome. -/
def refusalOf : Host.Outcome State Fault Refusal → Option Refusal
  | .next _ => none
  | .fault _ => none
  | .refused r => some r

/-- A call made in the state another call leaves. -/
def andThen (o : Host.Outcome State Fault Refusal) (i : Instr) : Host.Outcome State Fault Refusal :=
  match o with
  | .next s => exec i s
  | .fault f => .fault f
  | .refused r => .refused r

/-- The call a record decodes to. -/
def read (r : Record) : Option Instr := (decode r).toOption

/-- Why a record is refused. -/
def whyNot (r : Record) : Option DecodeError :=
  match decode r with
  | .ok _ => none
  | .error e => some e

/-! ### Well-formedness: an ill-formed term for each check, beside the last well-formed one -/

theorem test_wellFormed_slot :
    (Instr.remap 4 0 .readWrite).wellFormed Config.default = false ∧
    (Instr.remap 3 0 .readWrite).wellFormed Config.default = true := by decide

theorem test_wellFormed_bank :
    (Instr.remap 0 12 .readOnly).wellFormed Config.default = false ∧
    (Instr.remap 0 11 .readOnly).wellFormed Config.default = true := by decide

theorem test_wellFormed_scanline :
    (Instr.renderScanline 240).wellFormed Config.default = false ∧
    (Instr.renderScanline 239).wellFormed Config.default = true := by decide

theorem test_wellFormed_colour :
    (Instr.setBorder 16).wellFormed Config.default = false ∧
    (Instr.setBorder 15).wellFormed Config.default = true := by decide

theorem test_wellFormed_name :
    (Instr.createHeaderBlock 0#16 0#8 (List.replicate 11 0x41#8) 0#16 0#16 0#16).wellFormed Config.default = false ∧
    (Instr.createHeaderBlock 0#16 0#8 (List.replicate 10 0x41#8) 0#16 0#16 0#16).wellFormed Config.default = true := by
  decide

theorem test_wellFormed_line :
    (Instr.lineOffset 192).wellFormed Config.default = false ∧
    (Instr.lineOffset 191).wellFormed Config.default = true := by decide

/-! ### Decoding: one record for each constructor, written out from the operand list of 30_encoding.md R72 -/

theorem test_decode_mmu :
    read [0, 0x5800] = some (.translate 0x5800#16) ∧
    read [1, 0x8000] = some (.readByte 0x8000#16) ∧
    read [2, 0xC000, 0x5A] = some (.writeByte 0xC000#16 0x5A#8) ∧
    read [3, 0x7FFF] = some (.readWord 0x7FFF#16) ∧
    read [4, 0x7FFF, 0xBEEF] = some (.writeWord 0x7FFF#16 0xBEEF#16) ∧
    read [5, 3, 7, 1] = some (.remap 3 7 .readWrite) ∧
    read [5, 0, 11, 0] = some (.remap 0 11 .readOnly) := by decide

theorem test_decode_power :
    read [6, 0] = some (.reset .simple) ∧ read [7, 1] = some (.powerOn .banked) ∧ read [8] = some .powerOff := by decide

theorem test_decode_bus :
    read [9, 0x17] = some (.bankWrite 0x17#8) ∧
    read [10, 0x0556] = some (.fetchOpcode 0x0556#16) ∧
    read [11, 0x4001] = some (.cpuRead 0x4001#16) ∧
    read [12, 0xC001, 0x33] = some (.cpuWrite 0xC001#16 0x33#8) ∧
    read [13, 0x7FFD] = some (.portIn 0x7FFD#16) ∧
    read [14, 0x7FFD, 0x11] = some (.portOut 0x7FFD#16 0x11#8) ∧
    read [15, 0x05E2] = some (.resumeAt 0x05E2#16) := by decide

theorem test_decode_display :
    read [16, 24] = some (.renderScanline 24) ∧ read [17, 7] = some (.setBorder 7) ∧
    read [20, 191] = some (.lineOffset 191) ∧ read [21, 0xC7, 1] = some (.attrDecode 0xC7#8 true) := by decide

theorem test_decode_tape :
    read [18, 0x8000, 3, 0x1B00, 0x4000, 0x8000, 0x61, 0x62] =
      some (.createHeaderBlock 0x8000#16 3#8 [0x61#8, 0x62#8] 0x1B00#16 0x4000#16 0x8000#16) ∧
    read [19, 0xFFFE, 1, 2, 3] = some (.writeBlock 0xFFFE#16 [1#8, 2#8, 3#8]) := by decide

/-- The one row of opcode_table.json with decoded bits: PORT_OUT, 0x7FFD = 0b0111111111111101 (log 2). -/
theorem test_decode_table_word :
    decodeTableWord 16 0b0111111111111101 = some (.portOut 0x7FFD#16 0#8) ∧
    decodeTableWord 16 0x7FFC = none ∧ decodeTableWord 8 0 = none := by decide

theorem test_decode_rejects_by_name :
    whyNot [] = some .noSuchCall ∧ whyNot [22, 0] = some .noSuchCall ∧ whyNot [8, 0] = some .noSuchCall ∧
    whyNot [1, 65536] = some .operandTooWide ∧ whyNot [2, 0, 256] = some .operandTooWide ∧
    whyNot [7, 2] = some .operandTooWide ∧ whyNot [19, 0, 1, 256] = some .operandTooWide := by decide

theorem test_encode_writes_the_list_form :
    encode (.remap 3 7 .readWrite) = [5, 3, 7, 1] ∧
    encode (.createHeaderBlock 0x8000#16 3#8 [0x61#8] 0x1B00#16 0x4000#16 0x8000#16) =
      [18, 0x8000, 3, 0x1B00, 0x4000, 0x8000, 0x61] := by decide

/-! ### Operand layouts (R61 to R66) -/

/-- V-M1: 0x5800 is 01:0x1800 and 0xFFFF is 11:0x3FFF. -/
theorem test_va_fields :
    vaSlot 0x5800#16 = 1#2 ∧ vaOffset 0x5800#16 = 0x1800#14 ∧ vaSlot 0xFFFF#16 = 3#2 ∧ vaOffset 0xFFFF#16 = 0x3FFF#14 := by
  decide

/-- V-B1: 0xC1 is 11 0 0 0 001 and 0x33 is 00 1 1 0 011. -/
theorem test_banking_fields :
    bankRam 0b11000001#8 = 1#3 ∧ bankVid 0b11000001#8 = false ∧ bankRom 0b11000001#8 = false ∧
    bankLock 0b11000001#8 = false ∧ bankRam 0b00110011#8 = 3#3 ∧ bankVid 0b00110011#8 = false ∧
    bankRom 0b00110011#8 = true ∧ bankLock 0b00110011#8 = true := by decide

/-- V-S10 and V-D3: 0x47 is 0 1 000 111, ink 7, paper 0, bright 1; 0xB8 is 1 0 111 000. -/
theorem test_attribute_fields :
    attrInk 0b01000111#8 = 7#3 ∧ attrPaper 0b01000111#8 = 0#3 ∧ attrBright 0b01000111#8 = true ∧
    attrFlash 0b01000111#8 = false ∧ attrInk 0b10111000#8 = 0#3 ∧ attrPaper 0b10111000#8 = 7#3 ∧
    attrBright 0b10111000#8 = false ∧ attrFlash 0b10111000#8 = true := by decide

/-- V-D2: the attribute byte of line 100, column 3 is at 6531, of line 191, column 31 at 6911. -/
theorem test_attr_offset :
    attrOffset Config.default 100 3 = 6531 ∧ attrOffset Config.default 191 31 = 6911 := by decide

/-- V-D4: 0xA5 with ink 15 and paper 8 gives 2x15 2x8 2x15 4x8 2x15 2x8 2x15. -/
theorem test_expand_byte :
    expandByte 0xA5#8 15#4 8#4 =
      [15#4, 15#4, 8#4, 8#4, 15#4, 15#4, 8#4, 8#4, 8#4, 8#4, 15#4, 15#4, 8#4, 8#4, 15#4, 15#4] := by decide

/-! ### MMU operations -/

/-- V-M1. -/
theorem test_translate :
    resultOf (exec (.translate 0x3FFF#16) banked) = some (.location 8 16383#14 .readOnly) ∧
    resultOf (exec (.translate 0x4000#16) banked) = some (.location 5 0#14 .readWrite) := by decide

/-- V-M2: RAM is zero after reset; a ROM byte is readable. -/
theorem test_read_byte :
    resultOf (exec (.readByte 0x8000#16) banked) = some (.byte 0#8) ∧
    resultOf (exec (.readByte 0x0000#16) { banked with pool := [(8 * 16384, 0xF3#8)] }) = some (.byte 0xF3#8) := by decide

/-- V-M2: the first byte of slot 1 is stored. -/
theorem test_write_byte_stored :
    resultOf (andThen (exec (.writeByte 0x4000#16 0x55#8) banked) (.readByte 0x4000#16)) = some (.byte 0x55#8) := by decide

/-- V-M2: the last byte of slot 0 is discarded. -/
theorem test_write_byte_discarded :
    (after (exec (.writeByte 0x3FFF#16 0x55#8) banked)).map State.pool = some [] := by decide

/-- V-M3: a word read that wraps gives r8 * 256 + 0x34. -/
theorem test_read_word_wraps :
    resultOf (exec (.readWord 0xFFFF#16) { banked with pool := [(16383, 0x34#8), (8 * 16384, 0xF3#8)] }) =
      some (.word 0xF334#16) := by decide

/-- V-M3: a word across slots 1 and 2. -/
theorem test_write_word_crosses :
    (after (exec (.writeWord 0x7FFF#16 0xBEEF#16) banked)).map State.pool =
      some [(2 * 16384, 0xBE#8), (5 * 16384 + 16383, 0xEF#8)] := by decide

/-- V-M3: across slots 0 and 1 the low byte is discarded. -/
theorem test_write_word_half_discarded :
    (after (exec (.writeWord 0x3FFF#16 0xBEEF#16) banked)).map State.pool = some [(5 * 16384, 0xBE#8)] := by decide

/-- V-M4: REMAP answers the bank before, and the next read sees the new bank. -/
theorem test_remap :
    resultOf (exec (.remap 3 7 .readWrite) banked) = some (.bank 0) ∧
    resultOf (andThen (exec (.remap 3 7 .readWrite) { banked with pool := [(7 * 16384, 9#8)] }) (.readByte 0xC000#16)) =
      some (.byte 9#8) := by decide

/-- V-M4: out of range operands, and the latch does not gate REMAP. -/
theorem test_remap_range :
    refusalOf (exec (.remap 4 0 .readWrite) banked) = some .slotOutOfRange ∧
    refusalOf (exec (.remap 0 12 .readOnly) banked) = some .bankOutOfRange ∧
    (after (exec (.remap 3 1 .readWrite) simple)).map (fun t => t.slots.s3) = some ⟨1, .readWrite⟩ := by decide

/-! ### Reset and power -/

/-- V-R3: RESET keeps flash, border and power, and zeroes RAM but no ROM byte. -/
theorem test_reset :
    (after (exec (.reset .banked)
        { simple with flash := true, pool := [(0, 9#8), (8 * 16384 - 1, 1#8), (8 * 16384, 0xF3#8)] })).map
      (fun t => (t.flash, t.bankingEnabled, t.slots.s0, t.pool)) =
      some (true, true, ⟨8, .readOnly⟩, [(8 * 16384, 0xF3#8)]) := by decide

/-- V-R1. -/
theorem test_power_on_simple :
    (after (exec (.powerOn .simple) (construct Config.default))).map
      (fun t => (t.slots, t.bankingEnabled, t.currentRom, t.powered, t.flash, t.frameCount)) =
      some (⟨⟨10, .readOnly⟩, ⟨5, .readWrite⟩, ⟨2, .readWrite⟩, ⟨0, .readWrite⟩⟩, false, 10, true, false, 0) := by decide

/-- R197: the ROM image lands in the ROM banks and nowhere else. -/
theorem test_construct_loads_rom :
    (construct { Config.default with romImage := [(8 * 16384, 0xF3#8), (0, 1#8), (12 * 16384, 1#8)] }).pool =
      [(8 * 16384, 0xF3#8)] := by decide

theorem test_power_off :
    (after (exec .powerOff banked)).map (fun t => (t.powered, t.slots.s0)) = some (false, ⟨8, .readOnly⟩) := by decide

theorem test_before_power_on :
    refusalOf (exec (.readByte 0#16) (construct Config.default)) = some .beforePowerOn := by decide

/-! ### Banking -/

/-- V-B1: the row of 0x3F. -/
theorem test_bank_write_locks :
    (after (exec (.bankWrite 0x3F#8) banked)).map
      (fun t => (t.slots.s0, t.slots.s3, t.currentRom, t.videoSelect, t.bankingEnabled)) =
      some (⟨9, .readOnly⟩, ⟨7, .readWrite⟩, 9, true, false) := by decide

/-- V-B2: with the latch closed nothing changes. -/
theorem test_bank_write_locked :
    (after (exec (.bankWrite 0x1F#8) simple)).map (fun t => (t.slots, t.currentRom, t.videoSelect)) =
      some (simple.slots, 10, false) := by decide

/-- V-T6. -/
theorem test_port_out :
    (after (exec (.portOut 0x7FFD#16 0x11#8) banked)).map (fun t => (t.slots.s0, t.slots.s3)) =
      some (⟨9, .readOnly⟩, ⟨1, .readWrite⟩) ∧
    (after (exec (.portOut 0x7FFC#16 0x11#8) banked)).map State.slots = some banked.slots := by decide

/-- V-T6: PORT_IN changes no state of the block; its byte is a free value. -/
theorem test_port_in :
    (after (exec (.portIn 0x7FFD#16) banked)).map (fun t => (t.slots, t.pool, t.bankingEnabled, t.draws)) =
      some (banked.slots, banked.pool, true, 2) := by decide

/-! ### The CPU bus and traps -/

/-- V-T2: hA writes 1, hB reads the byte and writes it plus 1; both run, hA first, in RAM too. -/
theorem test_fetch_runs_all_in_order :
    (after (exec (.fetchOpcode 0x8000#16)
        (withTraps banked
          [trapAt 0x8000#16 [.call (.writeByte 0x9000#16 1#8)],
            { address := 0x8000#16, handler := .program (incrementAt 0x9000#16), owningRomBank := 10 }]))).map
      (fun t => (t.pool, t.result)) = some ([(2 * 16384 + 4096, 2#8)], .byte 0#8) := by decide

/-- R113: a program with state across runs, a loop and a branch: it stores as many bytes as host byte 0 says, at an address
register 0 gives, and redirects only when bank 0 is in slot 3. -/
def loader : HandlerCode :=
  .seq (.times (.host (.lit 0))
      (.seq (.call (.writeByte (.add (.lit 0x9000) (.reg (.lit 0))) (.reg (.lit 0))))
        (.setReg (.lit 0) (.mod (.add (.reg (.lit 0)) (.lit 1)) (.lit 256)))))
    (.seq (.call (.translate (.lit 0xC000)))
      (.ifElse (.equal (.answer 0) (.lit 0)) (.call (.resumeAt (.lit 0x05E2))) .skip))

theorem test_handler_program :
    (after (runHandler { banked with host := [2#8], cpu := { pc := 0#16, regs := [5#8] } } (.program loader))).map
      (fun t => (t.pool, t.cpu)) =
      some ([(2 * 16384 + 4101, 5#8), (2 * 16384 + 4102, 6#8)], { pc := 0x05E2#16, regs := [7#8] }) ∧
    (after (runHandler { aliased with host := [0#8] } (.program loader))).map (fun t => t.cpu.pc) = some 0#16 := by decide

/-- R172: a program that passes 256 as a byte, or 65536 as an address, is refused, and the fetch with it; R68: the policy of a
TRANSLATE answer is asked for and passed by name. -/
theorem test_handler_operands :
    exec (.fetchOpcode 0x8000#16)
        (withTraps banked [⟨0x8000#16, .program (.call (.writeByte (.lit 0x9000) (.lit 256))), 10⟩]) =
      .refused .operandOutOfRange ∧
    runHandler banked (.program (.call (.readByte (.lit 65536)))) = .refused .operandOutOfRange ∧
    (after (runHandler banked (.program (.seq (.call (.translate (.lit 0x0000)))
        (.call (.remap (.lit 3) (.lit 7) (.ifElse .answerWritable (.named .readWrite) (.named .readOnly)))))))).map
      (fun t => t.slots.s3) = some ⟨7, .readOnly⟩ := ⟨rfl, rfl, by decide⟩

/-- Log 7: a slice past the end of the host's bytes is the shorter sequence; R164: its bytes are stored, no more. -/
theorem test_handler_slice :
    (after (runHandler { banked with host := [7#8, 8#8, 9#8], pool := [(2 * 16384 + 2, 6#8)] }
        (.program (.call (.writeBlock (.lit 0x8000) (.host (.lit 1) (.lit 4))))))).map State.pool =
      some [(2 * 16384, 8#8), (2 * 16384 + 1, 9#8), (2 * 16384 + 2, 6#8)] := by decide

/-- V-T5: the byte is read after the handler that changed it. -/
theorem test_fetch_reads_after_handlers :
    resultOf (exec (.fetchOpcode 0x8000#16)
        (withTraps banked [trapAt 0x8000#16 [.call (.writeByte 0x8000#16 0x77#8)]])) = some (.byte 0x77#8) := by decide

/-- V-T1: a data read of a trap address runs no handler. -/
theorem test_cpu_read_no_trap :
    (after (exec (.cpuRead 0x8000#16)
        (withTraps banked [trapAt 0x8000#16 [.call (.writeByte 0x8000#16 0x77#8)]]))).map
      (fun t => (t.pool, t.result)) = some ([], .byte 0#8) := by decide

/-- V-T6: a write below 0x4000 after power-on is discarded; P1 step 1 is stored. -/
theorem test_cpu_write :
    (after (exec (.cpuWrite 0x0100#16 0xFF#8) banked)).map State.pool = some [] ∧
    (after (exec (.cpuWrite 0xC000#16 0x11#8) banked)).map State.pool = some [(0, 0x11#8)] := by decide

/-- V-T3: with the filter on, the entry of bank 10 fires only with bank 10 in slot 0. -/
theorem test_trap_filter :
    trapMatches { banked with cfg := { banked.cfg with trapFilterByRom := true } } (trapAt 0x0556#16 []) 0x0556#16 = false ∧
    trapMatches { simple with cfg := { simple.cfg with trapFilterByRom := true } } (trapAt 0x0556#16 []) 0x0556#16 = true ∧
    trapMatches banked (trapAt 0x0556#16 []) 0x0556#16 = true ∧
    trapMatches banked (trapAt 0x0556#16 []) 0x0557#16 = false := by decide

/-- V-T4: the fetch answers the byte at its own address. -/
theorem test_resume_at_in_handler :
    (after (exec (.fetchOpcode 0x0556#16)
        { withTraps simple [trapAt 0x0556#16 [.call (.resumeAt 0x05E2#16)]] with
          pool := [(10 * 16384 + 0x0556, 0x14#8), (10 * 16384 + 0x05E2, 0x15#8)] })).map
      (fun t => (t.cpu.pc, t.result)) = some (0x05E2#16, .byte 0x14#8) := by decide

theorem test_resume_at :
    (after (exec (.resumeAt 0x05E2#16) banked)).map (fun t => (t.cpu.pc, t.slots)) = some (0x05E2#16, banked.slots) := by
  decide

/-! ### The display -/

/-- A frame with the narrowest borders, so that a row is short to check: display bank 5, one border row. -/
def tiny : State :=
  { banked with cfg := { banked.cfg with height := 194, topBorder := 1, leftBorder := 2, rightBorder := 1 } }

/-- The first entries of the row the outcome emits. -/
def rowStart (n : Nat) (o : Host.Outcome State Fault Refusal) : Option (List ColIdx) :=
  match resultOf o with
  | some (.row r) => some (r.take n)
  | _ => none

/-- V-D5 (b) and (d): attribute 0x47 and pixel bytes 0xFF (line 0) and 0xA5 (line 1, offset 256). -/
theorem test_render_active :
    rowStart 19 (exec (.renderScanline 1) { tiny with pool := [(5 * 16384, 0xFF#8), (5 * 16384 + 6144, 0x47#8)] }) =
      some (List.replicate 2 7#4 ++ List.replicate 16 15#4 ++ [0#4]) ∧
    rowStart 8 (exec (.renderScanline 2) { tiny with pool := [(5 * 16384 + 256, 0xA5#8), (5 * 16384 + 6144, 0x47#8)] }) =
      some [7#4, 7#4, 15#4, 15#4, 8#4, 8#4, 15#4, 15#4] := by decide

/-- V-D6: the 19th frame boundary wraps the counter and toggles flash; the row is a border row. -/
theorem test_render_frame_tick :
    (after (exec (.renderScanline 0) { tiny with frameCount := 18 })).map (fun t => (t.frameCount, t.flash)) =
      some (0, true) ∧
    rowStart 4 (exec (.renderScanline 0) tiny) = some [7#4, 7#4, 7#4, 7#4] := by decide

/-- V-D5 (e), and the power guard of R140. -/
theorem test_render_range_and_power :
    refusalOf (exec (.renderScanline 240) banked) = some .scanlineOutOfRange ∧
    (after (exec (.renderScanline 0) { banked with powered := false })).map (fun t => (t.result, t.frameCount)) =
      some (.noRow, 0) := by decide

theorem test_set_border :
    (after (exec (.setBorder 15) banked)).map State.borderColor = some 15#4 ∧
    refusalOf (exec (.setBorder 16) banked) = some .colourOutOfRange := by decide

/-- V-D1 and 90_conflicts.md C1: LineOffset(8) = 32, LineOffset(1) = 256, LineOffset(191) = 6112. -/
theorem test_line_offset :
    resultOf (exec (.lineOffset 8) banked) = some (.offset 32) ∧
    resultOf (exec (.lineOffset 1) banked) = some (.offset 256) ∧
    resultOf (exec (.lineOffset 191) banked) = some (.offset 6112) ∧
    refusalOf (exec (.lineOffset 192) banked) = some .lineOutOfRange := by decide

/-- V-D3: 0xC7 and 0x2A. -/
theorem test_attr_decode :
    resultOf (exec (.attrDecode 0xC7#8 false) banked) = some (.colours 15#4 8#4) ∧
    resultOf (exec (.attrDecode 0xC7#8 true) banked) = some (.colours 8#4 15#4) ∧
    resultOf (exec (.attrDecode 0x2A#8 true) banked) = some (.colours 2#4 5#4) := by decide

/-! ### Tape entry points -/

/-- V-X1: 03 61 62 and eight spaces, 00 1B 00 40 00 80 (bytes of value 0 are not listed). -/
theorem test_create_header :
    (after (exec (.createHeaderBlock 0x8000#16 3#8 [0x61#8, 0x62#8] 0x1B00#16 0x4000#16 0x8000#16) banked)).map
      State.pool =
      some [(32768, 3#8), (32769, 0x61#8), (32770, 0x62#8), (32771, 0x20#8), (32772, 0x20#8), (32773, 0x20#8),
        (32774, 0x20#8), (32775, 0x20#8), (32776, 0x20#8), (32777, 0x20#8), (32778, 0x20#8), (32780, 0x1B#8),
        (32782, 0x40#8), (32784, 0x80#8)] := by decide

/-- V-X3: a name of 11 bytes is refused. -/
theorem test_create_header_name :
    refusalOf (exec (.createHeaderBlock 0x8000#16 0#8 (List.replicate 11 0x41#8) 0#16 0#16 0#16) banked) =
      some .nameTooLong := by decide

/-- V-X4: the third byte falls in slot 0 and is discarded. -/
theorem test_write_block :
    (after (exec (.writeBlock 0xFFFE#16 [1#8, 2#8, 3#8]) banked)).map State.pool =
      some [(16382, 1#8), (16383, 2#8)] := by decide

/-- R160 and R162: length 1 + 2, type 0xFF, payload, exclusive or. -/
theorem test_tape_block :
    tapeBlock false 0xFF#8 [1#8, 2#8] = [3#8, 0#8, 0xFF#8, 1#8, 2#8, 0xFC#8] ∧
    (tapeBlock true 0#8 (headerPayload 3#8 [] 0#16 0#16 0#16)).take 2 = [19#8, 0#8] := by decide

/-! ### The step -/

theorem test_step_runs_the_oldest_call :
    (after (step { banked with pending := [[2, 0x8000, 5], [8]] })).map (fun t => (t.pool, t.pending)) =
      some ([(2 * 16384, 5#8)], [[8]]) := by decide

theorem test_step_idles_and_refuses :
    (after (step banked)).map State.pending = some [] ∧
    refusalOf (step { banked with pending := [[99]] }) = some (.undecodable .noSuchCall) := by decide

theorem test_with_fetch_word :
    (after (step (State.reset.withFetchWord 16 0x7FFD))).map (fun t => (t.slots.s3, t.bankingEnabled)) =
      some (⟨0, .readWrite⟩, true) := by decide

/-! ### Witnesses: for each obligation with hypotheses, a state and operands that meet them all -/

theorem test_witness_DecodedRecordIsTheEncoding : decode [5, 3, 7, 1] = .ok (.remap 3 7 .readWrite) := rfl

/-- The last line, and both ends of the ranges that tile the pixel area. -/
theorem test_witness_PixelOffsetIsTheFieldSwap : (191#8).toNat < 192 ∧ (0#8).toNat < 192 := by decide

/-- Two addresses of one slot that translate alike are one address. -/
theorem test_witness_TranslationSplitsTheAddress :
    vaSlot 0xFFFF#16 = vaSlot 0xFFFF#16 ∧ banked.physOf 0xFFFF#16 = banked.physOf 0xFFFF#16 ∧
    vaSlot 0xC000#16 = vaSlot 0xFFFF#16 ∧ banked.physOf 0xC000#16 ≠ banked.physOf 0xFFFF#16 := by decide

theorem test_witness_TranslateAnswersTheLocation : banked.booted = true := by decide

/-- Both ends of the address space. -/
theorem test_witness_ReadByteAnswersTheMappedByte :
    banked.booted = true ∧ (banked.slotOf 0x0000#16).bank < banked.cfg.numBanks ∧
    (banked.slotOf 0xFFFF#16).bank < banked.cfg.numBanks := by decide

/-- The first address of a ReadWrite slot and the last of the ReadOnly slot below it. -/
theorem test_witness_WriteByteStoresOrIsDiscarded :
    banked.booted = true ∧
    ((banked.slotOf 0x4000#16).policy = .readWrite ∧ (banked.slotOf 0x4000#16).bank < banked.cfg.numBanks) ∧
    (banked.slotOf 0x3FFF#16).policy = .readOnly := by decide

theorem test_witness_WrittenByteReadsBack :
    banked.booted = true ∧ (banked.slotOf 0x4000#16).bank < banked.cfg.numBanks ∧
    (banked.slotOf 0x3FFF#16).bank < banked.cfg.numBanks := by decide

/-- The word at the top of the address space, whose high byte is at 0. -/
theorem test_witness_ReadWordIsLittleEndian :
    banked.booted = true ∧ (banked.slotOf 0xFFFF#16).bank < banked.cfg.numBanks ∧
    (banked.slotOf (0xFFFF#16 + 1#16)).bank < banked.cfg.numBanks := by decide

/-- A word whose low byte is discarded and whose high byte is stored, and the other way round. -/
theorem test_witness_WriteWordStoresEachByteOnItsOwn :
    banked.booted = true ∧
    ((banked.slotOf 0x3FFF#16).bank < banked.cfg.numBanks ∧ (banked.slotOf (0x3FFF#16 + 1#16)).bank < banked.cfg.numBanks ∧
      (banked.slotOf 0x3FFF#16).policy = .readOnly ∧ (banked.slotOf (0x3FFF#16 + 1#16)).policy = .readWrite) ∧
    ((banked.slotOf 0xFFFF#16).bank < banked.cfg.numBanks ∧ (banked.slotOf (0xFFFF#16 + 1#16)).bank < banked.cfg.numBanks ∧
      (banked.slotOf 0xFFFF#16).policy = .readWrite ∧ (banked.slotOf (0xFFFF#16 + 1#16)).policy = .readOnly) := by decide

theorem test_witness_AliasedWindowsShareTheirBytes :
    aliased.booted = true ∧ (aliased.slotOf 0xC001#16).policy = .readWrite ∧
    (aliased.slotOf 0xC001#16).bank < aliased.cfg.numBanks ∧
    (aliased.slotOf 0x4001#16).bank = (aliased.slotOf 0xC001#16).bank ∧
    (0xC001#16).toNat % 16384 = (0x4001#16).toNat % 16384 := by decide

/-- The last slot and bank in range, the first slot out of range, the first bank out of range. -/
theorem test_witness_RemapReplacesOneSlot :
    banked.booted = true ∧ (3 < 4 ∧ 11 < banked.cfg.numBanks) ∧ 4 ≤ 4 ∧ (3 < 4 ∧ banked.cfg.numBanks ≤ 12) := by decide

theorem test_witness_RemapIsSeenByTheNextRead : banked.booted = true ∧ 11 < banked.cfg.numBanks := by decide

/-- Both orders of the alternate ROMs. -/
theorem test_witness_BankWriteMapsAndLocks :
    Config.default.altSwapped = false ∧ ({ Config.default with altSwapped := true } : Config).altSwapped = true ∧
    (banked.booted = true ∧ banked.bankingEnabled = true) ∧ simple.booted = true ∧ simple.bankingEnabled = false := by
  decide

theorem test_witness_OnlyBankedResetSetsTheLatch :
    ∃ t, exec (.reset .banked) simple = .next t ∧ simple.bankingEnabled = false ∧ t.bankingEnabled = true :=
  ⟨_, rfl, rfl, rfl⟩

theorem test_witness_PortOutReachesOnlyTheBankingPort :
    banked.booted = true ∧ 0x7FFD#16 ∈ banked.cfg.bankPorts ∧ 0x7FFC#16 ∉ banked.cfg.bankPorts := by decide

/-- A table with a handler at 0x8000 that stores and redirects. -/
def trapped : State :=
  withTraps banked [trapAt 0x8000#16 [.call (.writeByte 0x9000#16 1#8), .call (.resumeAt 0x05E2#16), .setHost [1#8]]]

theorem test_witness_FetchWithoutTrapIsAPlainRead :
    trapped.booted = true ∧ (trapped.slotOf 0x8001#16).bank < trapped.cfg.numBanks ∧
    ∀ e ∈ trapped.cfg.trapTable, e.address ≠ 0x8001#16 := by decide

/-- Filtered matching (V-T3) with ROM 8 in slot 0: the first entry maps ROM 10 there, so the second, of bank 10, fires, and the
third, of bank 8, no longer does. -/
def filtered : State :=
  { withTraps banked
      [{ address := 0x8000#16, handler := .script [.call (.remap 0 10 .readOnly)], owningRomBank := 8 },
        trapAt 0x8000#16 [.call (.writeByte 0x9000#16 1#8)],
        { address := 0x8000#16, handler := .script [.call (.writeByte 0x9000#16 2#8)], owningRomBank := 8 }] with
    cfg.trapFilterByRom := true }

theorem test_filtered_dispatch :
    (after (exec (.fetchOpcode 0x8000#16) filtered)).map State.pool = some [(2 * 16384 + 4096, 1#8)] := by decide

theorem test_witness_FetchRunsMatchingHandlersInTableOrder :
    (filtered.booted = true ∧ filtered.cfg.trapFilterByRom = true ∧
      ∃ t u, Dispatched 0x8000#16 filtered filtered.cfg.trapTable t ∧ exec (.cpuRead 0x8000#16) t = .next u) ∧
    trapped.booted = true ∧ trapped.cfg.trapFilterByRom = false ∧
    (∀ e ∈ trapped.cfg.trapTable, e.address = 0x8000#16 → ∃ actions, e.handler = .script actions) ∧
    ∃ t, runActions trapped (scriptsAt 0x8000#16 trapped.cfg.trapTable) = .next t := by
  refine ⟨⟨rfl, rfl, _, _, .fires rfl rfl (.fires rfl rfl (.passes rfl (.done _))), rfl⟩, rfl, rfl, fun e he _ => ?_, _, rfl⟩
  cases List.mem_singleton.mp he
  exact ⟨_, rfl⟩

theorem test_witness_FetchCompletesWithPermittedHandlers :
    trapped.booted = true ∧ trapped.BanksExist ∧ TrapsSafe trapped.cfg 0x8000#16 := by
  refine ⟨rfl, by decide, fun e he _ => ?_⟩
  cases List.mem_singleton.mp he
  show ∀ s : State, ∀ a ∈ [_, _, _], _
  intro s
  decide

/-- A program keeps to R113 too. -/
theorem test_witness_program_keeps_to_R113 (c : Config) :
    HandlerSafe c (.program loader) ∧ HandlerKeepsMapping (.program loader) := by
  have hr (s : State) : evalValue s (.reg (.lit 0)) < 256 := (s.cpu.regs.getD 0 0#8).isLt
  have hw (s : State) : evalCall s (.writeByte (.add (.lit 0x9000) (.reg (.lit 0))) (.reg (.lit 0))) =
      .ok (.writeByte (BitVec.ofNat 16 (evalValue s (.add (.lit 0x9000) (.reg (.lit 0)))))
        (BitVec.ofNat 8 (evalValue s (.reg (.lit 0))))) := by
    simp only [evalCall]
    rw [evalBits_fits (by have := hr s; simp only [evalValue] at *; omega), evalBits_fits (hr s)]
    rfl
  have ht (s : State) : evalCall s (.translate (.lit 0xC000)) = .ok (.translate 0xC000#16) := rfl
  have hj (s : State) : evalCall s (.resumeAt (.lit 0x05E2)) = .ok (.resumeAt 0x05E2#16) := rfl
  have hs (s : State) : evalBits 8 s (.mod (.add (.reg (.lit 0)) (.lit 1)) (.lit 256)) =
      .ok (BitVec.ofNat 8 (evalValue s (.mod (.add (.reg (.lit 0)) (.lit 1)) (.lit 256)))) :=
    evalBits_fits (Nat.mod_lt _ (by decide : 0 < 256))
  constructor <;> apply handlerAll_program <;> simp [CodeAll, loader, hw, ht, hj, hs, actionAllowed, handlerMayCall,
    Instr.wellFormed, actionIsRemap]

/-- A no-op handler, and a handler that changes neither the slot nor the byte. -/
theorem test_witness_TrapsAreTransparent :
    ((withTraps banked [trapAt 0x8000#16 []]).booted = true ∧
      ((withTraps banked [trapAt 0x8000#16 []]).slotOf 0x8000#16).bank < banked.cfg.numBanks ∧
      ∀ e ∈ (withTraps banked [trapAt 0x8000#16 []]).cfg.trapTable, e.address = 0x8000#16 → e.handler = .script []) ∧
    ∃ t, exec (.fetchOpcode 0x8000#16) trapped = .next t ∧ t.slotOf 0x8000#16 = trapped.slotOf 0x8000#16 ∧
      Memory.read t.pool (trapped.physOf 0x8000#16) = Memory.read trapped.pool (trapped.physOf 0x8000#16) :=
  ⟨by decide, _, rfl, rfl, by decide⟩

/-- A handler that would re-enter the fetch, after a store. -/
def reentrant : TrapEntry := trapAt 0x8000#16 [.call (.writeByte 0x9000#16 1#8), .call (.fetchOpcode 0#16)]

/-- A handler program that passes 256 as a byte. -/
def tooWide : TrapEntry :=
  { address := 0x8000#16, handler := .program (.call (.writeByte (.lit 0x9000) (.lit 256))), owningRomBank := 10 }

/-- A REMAP of slot 4 as a handler's second action; an operand too wide as a program's first. -/
theorem test_witness_ForbiddenHandlerCallIsRefused_domain :
    (∃ t u, (withTraps banked [trapAt 0x8000#16 [.setHost [1#8], .call (.remap 4 0 .readOnly)]]).booted = true ∧
      runAction u (.call (.remap 4 0 .readOnly)) = .refused .slotOutOfRange ∧
      dispatchTraps (withTraps banked [trapAt 0x8000#16 [.setHost [1#8], .call (.remap 4 0 .readOnly)]]) 0x8000#16 [] = .next t ∧
      trapMatches t (trapAt 0x8000#16 [.setHost [1#8], .call (.remap 4 0 .readOnly)]) 0x8000#16 = true ∧
      handlerActions t (trapAt 0x8000#16 [.setHost [1#8], .call (.remap 4 0 .readOnly)]).handler =
        [.setHost [1#8]] ++ .call (.remap 4 0 .readOnly) :: [] ∧
      runActions (handlerStart t (trapAt 0x8000#16 [.setHost [1#8], .call (.remap 4 0 .readOnly)]).handler) [.setHost [1#8]] =
        .next u) ∧
    ∃ t u, (withTraps banked [tooWide]).booted = true ∧ (withTraps banked [tooWide]).cfg.trapTable = [] ++ tooWide :: [] ∧
      runAction u .outOfRange = .refused .operandOutOfRange ∧
      dispatchTraps (withTraps banked [tooWide]) 0x8000#16 [] = .next t ∧ trapMatches t tooWide 0x8000#16 = true ∧
      handlerActions t tooWide.handler = [] ++ .outOfRange :: [] ∧
      runActions (handlerStart t tooWide.handler) [] = .next u :=
  ⟨⟨_, _, rfl, rfl, rfl, rfl, rfl, rfl⟩, _, _, rfl, rfl, rfl, rfl, rfl, rfl, rfl⟩

/-- The forbidden call as the second action of the second entry; and as the first action of the first. -/
theorem test_witness_ForbiddenHandlerCallIsRefused :
    handlerMayCall (.fetchOpcode 0#16) = false ∧
    (∃ t u, (withTraps banked [trapAt 0x8000#16 [], reentrant]).booted = true ∧
      (withTraps banked [trapAt 0x8000#16 [], reentrant]).cfg.trapTable = [trapAt 0x8000#16 []] ++ reentrant :: [] ∧
      dispatchTraps (withTraps banked [trapAt 0x8000#16 [], reentrant]) 0x8000#16 [trapAt 0x8000#16 []] = .next t ∧
      trapMatches t reentrant 0x8000#16 = true ∧
      handlerActions t reentrant.handler = [.call (.writeByte 0x9000#16 1#8)] ++ .call (.fetchOpcode 0#16) :: [] ∧
      runActions (handlerStart t reentrant.handler) [.call (.writeByte 0x9000#16 1#8)] = .next u) ∧
    ∃ t u, (withTraps banked [trapAt 0x8000#16 [.call .powerOff]]).cfg.trapTable = [] ++ trapAt 0x8000#16 [.call .powerOff] :: [] ∧
      handlerMayCall .powerOff = false ∧
      dispatchTraps (withTraps banked [trapAt 0x8000#16 [.call .powerOff]]) 0x8000#16 [] = .next t ∧
      trapMatches t (trapAt 0x8000#16 [.call .powerOff]) 0x8000#16 = true ∧
      handlerActions t (trapAt 0x8000#16 [.call .powerOff]).handler = [] ++ .call .powerOff :: [] ∧
      runActions (handlerStart t (trapAt 0x8000#16 [.call .powerOff]).handler) [] = .next u :=
  ⟨rfl, ⟨_, _, rfl, rfl, rfl, rfl, rfl, rfl⟩, _, _, rfl, rfl, rfl, rfl, rfl, rfl⟩

/-- With the filter off, and with it on. -/
theorem test_witness_TrapMatchIsExactAddressAndOptionalRom :
    banked.cfg.trapFilterByRom = false ∧
    ({ banked with cfg := { banked.cfg with trapFilterByRom := true } } : State).cfg.trapFilterByRom = true := by decide

theorem test_witness_CpuReadRunsNoHandler :
    trapped.booted = true ∧ (trapped.slotOf 0x8000#16).bank < trapped.cfg.numBanks := by decide

theorem test_witness_CpuWriteIsWriteByte :
    banked.booted = true ∧ (banked.slotOf 0x0100#16).bank < banked.cfg.numBanks := by decide

theorem test_witness_PortInChangesNoState : banked.booted = true := by decide

/-- A handler that redirects to `x`. -/
def redirect (x : Va) : TrapEntry := trapAt 0x0556#16 [.call (.resumeAt x)]

theorem test_witness_ResumeAtAssignsTheNextFetchAddress :
    (withTraps simple [redirect 1#16, redirect 2#16]).booted = true ∧
    ((withTraps simple [redirect 1#16, redirect 2#16]).slotOf 0x0556#16).bank < 12 ∧
    (withTraps simple [redirect 1#16, redirect 2#16]).cfg.trapTable = [redirect 1#16, redirect 2#16] ∧
    (redirect 1#16).handler = .script [.call (.resumeAt 1#16)] ∧
    (redirect 2#16).handler = .script [.call (.resumeAt 2#16)] ∧
    trapMatches (withTraps simple [redirect 1#16, redirect 2#16]) (redirect 1#16) 0x0556#16 = true ∧
    trapMatches (withTraps simple [redirect 1#16, redirect 2#16]) (redirect 2#16) 0x0556#16 = true := by
  decide

/-- Three handlers, the middle one with two calls and a register change after them, the last with none. -/
def redirects : State :=
  withTraps simple
    [redirect 1#16, trapAt 0x0556#16 [.call (.resumeAt 2#16), .call (.resumeAt 3#16), .setCpuRegs [7#8]],
      trapAt 0x0556#16 [.call (.writeByte 0x9000#16 1#8)]]

theorem test_witness_ResumeAt_last_call :
    ∃ t w, redirects.cfg.trapTable = [redirect 1#16] ++
        trapAt 0x0556#16 [.call (.resumeAt 2#16), .call (.resumeAt 3#16), .setCpuRegs [7#8]] ::
          [trapAt 0x0556#16 [.call (.writeByte 0x9000#16 1#8)]] ∧
      dispatchTraps redirects 0x0556#16 [redirect 1#16] = .next t ∧
      trapMatches t (trapAt 0x0556#16 [.call (.resumeAt 2#16), .call (.resumeAt 3#16), .setCpuRegs [7#8]]) 0x0556#16 = true ∧
      handlerActions t (.script [.call (.resumeAt 2#16), .call (.resumeAt 3#16), .setCpuRegs [7#8]]) =
        [.call (.resumeAt 2#16)] ++ .call (.resumeAt 3#16) :: [.setCpuRegs [7#8]] ∧
      (∀ a ∈ [HandlerAction.setCpuRegs [7#8]], actionIsResume a = false) ∧
      HandlerNeverResumes (.script [.call (.writeByte 0x9000#16 1#8)]) ∧
      exec (.fetchOpcode 0x0556#16) redirects = .next w := by
  refine ⟨_, _, rfl, rfl, rfl, rfl, by decide, ?_, rfl⟩
  show ∀ s : State, ∀ a ∈ [_], _
  intro s
  decide

/-- The last line in range and the first out of range. -/
theorem test_witness_LineOffsetFollowsTheFormula : 191 < 192 ∧ 192 ≤ 192 := by decide

/-- The last byte of the pixel area, and the last line and column. -/
theorem test_witness_LinesTileThePixelArea :
    6143 < 6144 ∧ (191 < 192 ∧ 31 < 32 ∧ lineOffset 191 + 31 = lineOffset 191 + 31) := by decide

/-- The first and last row of each border band (V-D5 e). -/
theorem test_witness_BorderRowIsTheBorderColour :
    banked.booted = true ∧ banked.powered = true ∧
    ∀ index ∈ [0, 23, 216, 239],
      index < banked.cfg.height ∧ (index < banked.cfg.topBorder ∨ banked.cfg.topBorder + 192 ≤ index) := by decide

/-- The first and last active row, the last column and output entry. -/
theorem test_witness_ActiveRowShowsThePixels :
    banked.booted = true ∧ banked.powered = true ∧ banked.cfg.Ok ∧
    (∀ index ∈ [24, 215], banked.cfg.topBorder ≤ index ∧ index < banked.cfg.topBorder + 192) ∧
    63 < banked.cfg.leftBorder ∧ 63 < banked.cfg.rightBorder ∧ 31 < 32 ∧ 15 < 16 := by decide

/-- A counter that wraps, one that does not, a row other than 0, and row 0 while not powered. -/
theorem test_witness_FrameTickCountsToNineteen :
    (banked.booted = true ∧ banked.powered = true ∧ banked.cfg.Ok) ∧
    ({ banked with frameCount := 18 } : State).frameCount + 1 = 19 ∧
    ({ banked with frameCount := 17 } : State).frameCount + 1 ≠ 19 ∧
    (1 ≠ 0 ∧ (after (exec (.renderScanline 1) banked)).isSome = true) ∧
    ({ banked with powered := false } : State).powered = false ∧
    (after (exec (.renderScanline 0) { banked with powered := false })).isSome = true := by decide

theorem test_witness_FlashPeriodIsNineteenFrames :
    banked.booted = true ∧ banked.powered = true ∧ banked.cfg.Ok ∧ banked.frameCount = 0 ∧ banked.flash = false := by decide

/-- The 19th boundary with other calls, one of them unpowered, around it (V-D6); only one of the three counts. -/
theorem test_witness_FlashPeriod_interleaved :
    ({ banked with frameCount := 18 } : State).frameCount = 18 % 19 ∧
    (({ banked with frameCount := 18 } : State).flash = true ↔ 18 / 19 % 2 = 1) ∧
    boundariesAfter 18 true [.setBorder 3, .renderScanline 0, .renderScanline 1, .powerOff, .renderScanline 0] = 19 ∧
    ∃ t, runCalls [.setBorder 3, .renderScanline 0, .renderScanline 1, .powerOff, .renderScanline 0]
        { banked with frameCount := 18 } = .next t ∧ t.frameCount = 0 ∧ t.flash = true :=
  ⟨by decide, by decide, by decide, _, rfl, rfl, rfl⟩

theorem test_witness_UnpoweredRenderEmitsNothing :
    ({ banked with powered := false } : State).booted = true ∧ ({ banked with powered := false } : State).powered = false ∧
    239 < banked.cfg.height := by decide

theorem test_witness_RenderOutOfRangeIsRefused : banked.booted = true ∧ banked.cfg.height ≤ 240 := by decide

theorem test_witness_DisplayIgnoresTheMapping : ∃ t, exec (.renderScanline 24) banked = .next t := ⟨_, rfl⟩

/-- A pool that differs in a byte of bank 0 only. -/
theorem test_witness_RowDependsOnlyOnTheDisplayBank :
    banked.cfg.Ok ∧
    (∀ o, o < 16384 → Memory.read [(0, 1#8)] (banked.cfg.displayBank * 16384 + o) =
      Memory.read banked.pool (banked.cfg.displayBank * 16384 + o)) ∧
    ∃ t, exec (.renderScanline 24) banked = .next t := by
  refine ⟨by decide, fun o _ => ?_, _, rfl⟩
  have h : banked.cfg.displayBank * 16384 + o ≠ 0 := by show 5 * 16384 + o ≠ 0; omega
  simp only [Memory.read, if_neg h]
  rfl

/-- The last colour and the first that is none. -/
theorem test_witness_SetBorderStoresTheColour : banked.booted = true ∧ 15 < 16 ∧ 16 ≤ 16 := by decide

/-- The longest name and the first too long. -/
theorem test_witness_HeaderIsTheSeventeenPayloadBytes :
    banked.booted = true ∧ (List.replicate 10 0x41#8).length ≤ 10 ∧ banked.BanksExist ∧
    10 < (List.replicate 11 0x41#8).length := by decide

/-- A block that wraps into slot 0: its first byte is the last stored, its second lands in the ReadOnly slot; a byte of
another bank is one that no byte lands on. -/
theorem test_witness_WriteBlockStoresAscendingBytes :
    banked.booted = true ∧ banked.BanksExist ∧
    (∀ i, i < [1#8, 2#8].length → (banked.slotOf (0xFFFF#16 + BitVec.ofNat 16 i)).policy = .readWrite →
      5 * 16384 ≠ banked.physOf (0xFFFF#16 + BitVec.ofNat 16 i)) ∧
    [1#8, 2#8][0]? = some 1#8 ∧ (banked.slotOf (0xFFFF#16 + BitVec.ofNat 16 0)).policy = .readWrite ∧
    ∀ j, j < [1#8, 2#8].length → 0 < j → (banked.slotOf (0xFFFF#16 + BitVec.ofNat 16 j)).policy = .readWrite →
      banked.physOf (0xFFFF#16 + BitVec.ofNat 16 j) ≠ banked.physOf (0xFFFF#16 + BitVec.ofNat 16 0) := by decide

theorem test_witness_ResetRestoresTheBootMapping : simple.booted = true := by decide

theorem test_witness_PowerOffClearsOnlyPowered : banked.booted = true := by decide

/-- The machine before its first POWER_ON, and a call that is none of the three exceptions. -/
theorem test_witness_NothingRunsBeforePowerOn :
    (construct Config.default).booted = false ∧ (∀ v, Instr.powerOff ≠ .powerOn v) ∧
    (∀ y, Instr.powerOff ≠ .lineOffset y) ∧ ∀ a f, Instr.powerOff ≠ .attrDecode a f := by
  refine ⟨rfl, ?_, ?_, ?_⟩ <;> intros <;> simp

/-- The last RAM byte. -/
theorem test_witness_ResetStateHoldsTheSpecValues : 8 * 16384 - 1 < 8 * 16384 := by decide

/-- A call waiting, a record that is no call waiting, nothing waiting. -/
theorem test_witness_StepRunsTheDecodedCall :
    (({ banked with pending := [[8]] } : State).pending = [8] :: [] ∧ decode [8] = .ok .powerOff) ∧
    (({ banked with pending := [[99]] } : State).pending = [99] :: [] ∧ decode [99] = .error .noSuchCall) ∧
    banked.pending = [] := ⟨⟨rfl, rfl⟩, ⟨rfl, rfl⟩, rfl⟩

/-- A good state with BANK_WRITE 0x33 waiting: it keeps the invariant and the banked layout. -/
def waiting : State := { banked with pending := [[9, 0x33]] }

theorem test_witness_EveryStepKeepsTheInvariant : waiting.Inv ∧ ∃ t, step waiting = .next t :=
  ⟨by decide, _, rfl⟩

theorem test_witness_NoStepFromAGoodStateFaults : waiting.Inv ∧ ({ waiting with pending := [[99]] } : State).Inv := by
  decide

theorem waiting_noRemap (s : State) (h : s.pending = [[9, 0x33]]) : nextIsNoRemap s := by
  intro r t k b p hr hd
  simp only [takeCall, h] at hr
  cases hr
  have h9 : decode [9, 0x33] = .ok (.bankWrite 0x33#8) := rfl
  rw [h9] at hd
  cases hd

/-- Both variants, with a handler in the table that calls no REMAP. -/
theorem test_witness_StepsWithoutRemapKeepTheSlotLayout :
    (waiting.cfg.Ok ∧ waiting.SlotLayout .banked ∧ nextIsNoRemap waiting ∧ ∃ t, step waiting = .next t) ∧
    (({ simple with pending := [[9, 0x33]] } : State).SlotLayout .simple ∧
      nextIsNoRemap { simple with pending := [[9, 0x33]] }) ∧
    TrapsKeepMapping trapped.cfg ∧ TrapsKeepMapping waiting.cfg := by
  refine ⟨⟨by decide, by decide, waiting_noRemap _ rfl, _, rfl⟩, ⟨by decide, waiting_noRemap _ rfl⟩, fun e he => ?_, ?_⟩
  · cases List.mem_singleton.mp he
    show ∀ s : State, ∀ a ∈ [_, _, _], _
    intro s
    decide
  · intro e he
    cases he

/-- The first ROM byte, under the premises of the slot layout. -/
theorem test_witness_StepsWithoutRemapNeverChangeRom :
    waiting.cfg.Ok ∧ waiting.SlotLayout .banked ∧ TrapsKeepMapping waiting.cfg ∧ nextIsNoRemap waiting ∧
    (∃ t, step waiting = .next t) ∧ (waiting.cfg.numBanks - 4) * 16384 ≤ 8 * 16384 :=
  ⟨by decide, by decide, fun _ he => (by cases he), waiting_noRemap _ rfl, ⟨_, rfl⟩, by decide⟩

/-- A call at the edge of its domain, and a fetch whose handlers keep to R113. -/
theorem test_witness_EveryCallInItsDomainCompletes :
    (banked.booted = true ∧ banked.Inv ∧ (Instr.remap 3 11 .readOnly).wellFormed banked.cfg = true) ∧
    trapped.Inv ∧ ∀ addr, Instr.fetchOpcode 0x8000#16 = .fetchOpcode addr → TrapsSafe trapped.cfg addr := by
  refine ⟨by decide, by decide, fun addr h => ?_⟩
  cases h
  exact test_witness_FetchCompletesWithPermittedHandlers.2.2

/-- A call a handler may make, an action that leaves a next state before another, a loop that does not run and one that does,
and an address in a ReadWrite slot. -/
theorem test_witness_HandlerActionsHaveTheirEffect :
    banked.booted = true ∧ handlerMayCall (.remap 3 7 .readWrite) = true ∧
    (∃ t, runAction banked (.call (.remap 3 7 .readWrite)) = .next t) ∧
    evalCall banked (.writeByte (.lit 65535) (.lit 255)) = .ok (.writeByte 65535#16 255#8) ∧
    evalCall banked (.writeByte (.lit 65535) (.lit 256)) = .error .operandTooWide ∧
    evalValue banked .hostCount = 0 ∧ evalValue banked (.lit 1) = 0 + 1 ∧
    (banked.slotOf 0x9000#16).bank < banked.cfg.numBanks ∧ (banked.slotOf 0x9000#16).policy = .readWrite :=
  ⟨rfl, rfl, ⟨_, rfl⟩, rfl, rfl, rfl, rfl, by decide, rfl⟩

/-- R113 and R120: each kind of action does its effect, in order. -/
theorem test_handler_actions :
    (after (runActions banked
        [.call (.remap 3 7 .readWrite), .call (.writeByte 0xC000#16 9#8), .setCpuRegs [1#8], .setHost [2#8]])).map
      (fun t => (t.slots.s3, t.pool, t.cpu.regs, t.host)) =
      some (⟨7, .readWrite⟩, [(7 * 16384, 9#8)], [1#8], [2#8]) := by decide

theorem test_witness_NoStepWritesTheParameters : ∃ t, step waiting = .next t := ⟨_, rfl⟩

end Sys2Proof.Tests
end

section
/-! PROOFS of the family 00_scope.md: no step writes the parameters (O59), and every call in its domain completes (O58). The
operations a handler may call (42_cpu_bus_and_traps.md R113) do the same for a caller as for a handler
(`exec_of_handlerMayCall`), so both proofs treat them once, through `handlerCall`. -/

namespace Sys2Proof.Machine

/-! ### A call and a handler's call -/

/-- A call that a handler may make does for every caller what it does for a handler, once the machine is powered on. -/
theorem exec_of_handlerMayCall {i : Instr} (hm : handlerMayCall i = true) (s : State) :
    exec i s = whenBooted s (handlerCall s i) := by
  cases i
  case translate | readByte | writeByte | readWord | writeWord | remap | resumeAt | createHeaderBlock | writeBlock => rfl
  all_goals cases hm

/-- CPU_READ is READ_BYTE (42_cpu_bus_and_traps.md R115). -/
theorem exec_cpuRead (addr : Va) (s : State) : exec (.cpuRead addr) s = exec (.readByte addr) s := rfl

/-- CPU_WRITE is WRITE_BYTE (42_cpu_bus_and_traps.md R116). -/
theorem exec_cpuWrite (addr : Va) (v : Byte) (s : State) : exec (.cpuWrite addr v) s = exec (.writeByte addr v) s := rfl

/-- An entry matches only at its own address (42_cpu_bus_and_traps.md R112). -/
theorem trapMatches_address {s : State} {e : TrapEntry} {addr : Va} (h : trapMatches s e addr = true) :
    e.address = addr := by
  simp only [trapMatches, Bool.and_eq_true, beq_iff_eq] at h
  exact h.1

/-! ### What one step can do -/

/-- Taking the oldest call changes the queue only. -/
theorem takeCall_some {s t : State} {r : Record} (h : takeCall s = some (r, t)) :
    s.pending = r :: t.pending ∧ t = { s with pending := t.pending } := by
  simp only [takeCall] at h
  split at h
  · cases h
  · next hp => cases h; exact ⟨hp, rfl⟩

/-- Everything a step that does not stop can do: nothing when no call waits, else the oldest call. -/
theorem step_cases {s t : State} (h : step s = .next t) :
    takeCall s = none ∧ t = s ∨
    ∃ r u i, takeCall s = some (r, u) ∧ decode r = .ok i ∧ exec i u = .next t := by
  simp only [step] at h
  split at h
  · next hn => cases h; exact .inl ⟨hn, rfl⟩
  · next r u hr =>
    split at h
    · next i hi => exact .inr ⟨r, u, i, hr, hi, h⟩
    · cases h

/-! ### No operation writes the parameters -/

@[simp] theorem bankWrite_cfg (s : State) (v : Byte) : (bankWrite s v).cfg = s.cfg := by
  rcases bankWrite_cases s v with ⟨-, h⟩ | ⟨-, h⟩ <;> rw [h]

@[simp] theorem portOut_cfg (s : State) (port : Word) (v : Byte) : (portOut s port v).cfg = s.cfg := by
  simp only [portOut]
  split
  · exact bankWrite_cfg s v
  · rfl

@[simp] theorem tickedFor_cfg (s : State) (index : Nat) : (tickedFor s index).cfg = s.cfg := by
  rw [tickedFor_frame]

/-- A handler leaves the parameters as they are, whatever it does. -/
theorem runHandler_cfg {s t : State} {hd : Handler} (h : runHandler s hd = .next t) : t.cfg = s.cfg :=
  runHandler_keeps (P := fun u => u.cfg = s.cfg) (ok := fun _ => True)
    (fun _ _ _ _ he hs => he.cfg.trans hs) (fun _ _ _ hs => hs) (fun _ _ _ => trivial) h rfl

theorem dispatchTraps_cfg {s t : State} {addr : Va} {es : List TrapEntry} (h : dispatchTraps s addr es = .next t) :
    t.cfg = s.cfg :=
  dispatchTraps_keeps (P := fun u => u.cfg = s.cfg) (ok := fun _ => True)
    (fun _ _ _ _ he hs => he.cfg.trans hs) (fun _ _ _ hs => hs) (fun _ _ _ _ _ _ => trivial) h rfl

theorem fetchOpcode_cfg {s t : State} {addr : Va} (h : fetchOpcode s addr = .next t) : t.cfg = s.cfg := by
  obtain ⟨u, hu, -, rfl⟩ := fetchOpcode_next h
  exact (State.returning_cfg u _).trans (dispatchTraps_cfg hu)

theorem renderScanline_cfg {s t : State} {index : Nat} (h : renderScanline s index = .next t) : t.cfg = s.cfg := by
  obtain ⟨-, ⟨-, rfl⟩ | ⟨-, row, -, rfl⟩⟩ := renderScanline_next h
  · rfl
  · exact tickedFor_cfg s index

theorem exec_cfg_of_handlerMayCall {i : Instr} (hm : handlerMayCall i = true) {s t : State}
    (h : exec i s = .next t) : t.cfg = s.cfg := by
  rw [exec_of_handlerMayCall hm] at h
  exact (runAction_effect (a := .call i) (whenBooted_next h).2).cfg

/-- No call writes the parameters. -/
theorem exec_cfg {i : Instr} {s t : State} (h : exec i s = .next t) : t.cfg = s.cfg := by
  cases i
  case translate | readByte | writeByte | readWord | writeWord | remap | resumeAt | createHeaderBlock | writeBlock =>
    exact exec_cfg_of_handlerMayCall rfl h
  case cpuRead => rw [exec_cpuRead] at h; exact exec_cfg_of_handlerMayCall rfl h
  case cpuWrite => rw [exec_cpuWrite] at h; exact exec_cfg_of_handlerMayCall rfl h
  case reset | powerOff | portIn => obtain ⟨-, ⟨⟩⟩ := whenBooted_next h; rfl
  case bankWrite v => obtain ⟨-, ⟨⟩⟩ := whenBooted_next h; exact bankWrite_cfg s v
  case portOut port v => obtain ⟨-, ⟨⟩⟩ := whenBooted_next h; exact portOut_cfg s port v
  case powerOn | attrDecode => cases h; rfl
  case fetchOpcode => exact fetchOpcode_cfg (whenBooted_next h).2
  case renderScanline => exact renderScanline_cfg (whenBooted_next h).2
  case setBorder =>
    obtain ⟨-, h⟩ := whenBooted_next h
    split at h <;> cases h
    rfl
  case lineOffset =>
    simp only [exec, execLineOffset] at h
    split at h <;> cases h
    rfl

/-- Settles O59: an idle step keeps the state, a call keeps the parameters (`exec_cfg`). -/
theorem noStepWritesTheParameters : Obligations.NoStepWritesTheParameters := by
  intro s t h
  obtain ⟨-, rfl⟩ | ⟨r, u, i, hr, -, hx⟩ := step_cases h
  · rfl
  · rw [exec_cfg hx, (takeCall_some hr).2]

/-! ### The answers complete when the banks exist -/

theorem answerState_total {e : Except Fault State} (h : ∃ u, e = .ok u) : ∃ t, answerState e = .next t := by
  obtain ⟨u, rfl⟩ := h
  exact ⟨_, answerState_ok u⟩

theorem answerByte_total {s : State} (h : s.BanksExist) (va : Va) : ∃ t, answerByte s va = .next t :=
  ⟨_, answerByte_ok (BanksExist.slotOf h va)⟩

theorem answerWord_total {s : State} (h : s.BanksExist) (va : Va) : ∃ t, answerWord s va = .next t := by
  rw [answerWord, readWord_ok (BanksExist.slotOf h va) (BanksExist.slotOf h (va + 1#16))]
  exact ⟨_, rfl⟩

theorem answerHeader_total {s : State} (h : s.BanksExist) (va : Va) (kind : Byte) {name : List Byte}
    (hn : name.length ≤ 10) (len p1 p2 : Word) : ∃ t, answerHeader s va kind name len p1 p2 = .next t := by
  rw [answerHeader, if_pos hn]
  exact answerState_total (createHeader_total h va kind name len p1 p2)

theorem handlerCall_total {s : State} (h : s.BanksExist) {i : Instr} (hm : handlerMayCall i = true)
    (hw : i.wellFormed s.cfg = true) : ∃ t, handlerCall s i = .next t := by
  cases i
  case translate | resumeAt => exact ⟨_, rfl⟩
  case readByte va => exact answerByte_total h va
  case writeByte va v => exact answerState_total (writeByte_total h va v)
  case readWord va => exact answerWord_total h va
  case writeWord va w => exact answerState_total (writeWord_total h va w)
  case remap k b p =>
    simp only [Instr.wellFormed, Bool.and_eq_true, decide_eq_true_eq] at hw
    exact ⟨_, answerRemap_ok p hw.1 hw.2⟩
  case createHeaderBlock => exact answerHeader_total h _ _ (of_decide_eq_true hw) _ _ _
  case writeBlock va data => exact answerState_total (writeBlock_total h va data)
  all_goals cases hm

/-! ### Handlers that keep to R113 complete -/

theorem runAction_total {s : State} (h : s.BanksExist) {a : HandlerAction} (ha : actionAllowed s.cfg a = true) :
    ∃ t, runAction s a = .next t := by
  cases a with
  | call i =>
    simp only [actionAllowed, Bool.and_eq_true] at ha
    exact handlerCall_total h ha.1 ha.2
  | setCpuRegs regs => exact ⟨_, rfl⟩
  | setHost host => exact ⟨_, rfl⟩
  | outOfRange => cases ha

theorem runActions_total {s : State} (h : s.BanksExist) {as : List HandlerAction}
    (ha : ∀ a ∈ as, actionAllowed s.cfg a = true) : ∃ t, runActions s as = .next t := by
  induction as generalizing s with
  | nil => exact ⟨s, rfl⟩
  | cons a as ih =>
    obtain ⟨u, hu⟩ := runAction_total h (ha a (by simp))
    have he := runAction_effect hu
    obtain ⟨t, ht⟩ := ih (he.banksExist h) fun b hb => he.cfg ▸ ha b (by simp [hb])
    exact ⟨t, by simp only [runActions, hu, ht]⟩

theorem runHandler_total {s : State} (h : s.BanksExist) {hd : Handler} (hs : HandlerSafe s.cfg hd) :
    ∃ t, runHandler s hd = .next t := by
  refine runActions_total ?_ fun a ha => ?_
  · rw [handlerStart_frame]; exact h
  · rw [handlerStart_frame]; exact hs s a ha

theorem runHandler_banksExist {s t : State} {hd : Handler} (h : runHandler s hd = .next t) (hb : s.BanksExist) :
    t.BanksExist :=
  runHandler_keeps (P := State.BanksExist) (ok := fun _ => True)
    (fun _ _ _ _ he hs => he.banksExist hs) (fun _ _ _ hs => hs) (fun _ _ _ => trivial) h hb

theorem dispatchTraps_banksExist {s t : State} {addr : Va} {es : List TrapEntry}
    (h : dispatchTraps s addr es = .next t) (hb : s.BanksExist) : t.BanksExist :=
  dispatchTraps_keeps (P := State.BanksExist) (ok := fun _ => True)
    (fun _ _ _ _ he hs => he.banksExist hs) (fun _ _ _ hs => hs) (fun _ _ _ _ _ _ => trivial) h hb

theorem dispatchTraps_total {s : State} (h : s.BanksExist) {addr : Va} {es : List TrapEntry}
    (hs : ∀ e ∈ es, e.address = addr → HandlerSafe s.cfg e.handler) : ∃ t, dispatchTraps s addr es = .next t := by
  induction es generalizing s with
  | nil => exact ⟨s, rfl⟩
  | cons e es ih =>
    have hrest : ∀ e ∈ es, e.address = addr → HandlerSafe s.cfg e.handler := fun e he => hs e (by simp [he])
    cases hm : trapMatches s e addr with
    | true =>
      obtain ⟨u, hu⟩ := runHandler_total h (hs e (by simp) (trapMatches_address hm))
      obtain ⟨t, ht⟩ := ih (runHandler_banksExist hu h) (runHandler_cfg hu ▸ hrest)
      exact ⟨t, by simp only [dispatchTraps, hm, if_true, hu, ht]⟩
    | false =>
      obtain ⟨t, ht⟩ := ih h hrest
      exact ⟨t, by simp [dispatchTraps, hm, ht]⟩

theorem fetchOpcode_total {s : State} (h : s.BanksExist) {addr : Va} (hs : TrapsSafe s.cfg addr) :
    ∃ t, fetchOpcode s addr = .next t := by
  obtain ⟨u, hu⟩ := dispatchTraps_total h hs
  simp only [fetchOpcode, hu]
  exact answerByte_total (dispatchTraps_banksExist hu h) addr

/-! ### Every call in its domain completes -/

theorem renderRow_total {s : State} (hd : s.cfg.displayBank < s.cfg.numBanks) (index : Nat) :
    ∃ row, renderRow s index = .ok row := by
  cases hb : isBorderRow s.cfg index with
  | true => exact ⟨_, renderRow_border hb⟩
  | false => exact ⟨_, renderRow_active hb hd⟩

theorem renderScanline_total {s : State} (hd : s.cfg.displayBank < s.cfg.numBanks) {index : Nat}
    (hi : index < s.cfg.height) : ∃ t, renderScanline s index = .next t := by
  cases hp : s.powered with
  | false => exact ⟨s.returning .noRow, by simp [renderScanline, hi, hp]⟩
  | true =>
    obtain ⟨row, hrow⟩ := renderRow_total (s := tickedFor s index) (by simpa using hd) index
    exact ⟨_, renderScanline_ok hi hp hrow⟩

theorem exec_total_of_handlerMayCall {s : State} (hb : s.booted = true) (h : s.BanksExist) {i : Instr}
    (hm : handlerMayCall i = true) (hw : i.wellFormed s.cfg = true) : ∃ t, exec i s = .next t := by
  rw [exec_of_handlerMayCall hm, whenBooted_of hb]
  exact handlerCall_total h hm hw

/-- A call in its domain completes: of the invariant only the existing banks, slots' and display, are needed. -/
theorem exec_total {s : State} (hb : s.booted = true) (h : s.BanksExist) (hd : s.cfg.displayBank < s.cfg.numBanks)
    {i : Instr} (hw : i.wellFormed s.cfg = true) (hs : ∀ addr, i = .fetchOpcode addr → TrapsSafe s.cfg addr) :
    ∃ t, exec i s = .next t := by
  cases i
  case translate | readByte | writeByte | readWord | writeWord | remap | resumeAt | createHeaderBlock | writeBlock =>
    exact exec_total_of_handlerMayCall hb h rfl hw
  case cpuRead => rw [exec_cpuRead]; exact exec_total_of_handlerMayCall hb h rfl rfl
  case cpuWrite => rw [exec_cpuWrite]; exact exec_total_of_handlerMayCall hb h rfl rfl
  case reset | powerOff | bankWrite | portIn | portOut => exact ⟨_, whenBooted_of hb _⟩
  case powerOn | attrDecode => exact ⟨_, rfl⟩
  case fetchOpcode addr =>
    rw [exec, execFetchOpcode, whenBooted_of hb]
    exact fetchOpcode_total h (hs addr rfl)
  case renderScanline index =>
    rw [exec, execRenderScanline, whenBooted_of hb]
    exact renderScanline_total hd (of_decide_eq_true hw)
  case setBorder colour =>
    rw [exec, execSetBorder, whenBooted_of hb, if_pos (of_decide_eq_true hw)]
    exact ⟨_, rfl⟩
  case lineOffset y =>
    rw [exec, execLineOffset, if_pos (of_decide_eq_true hw)]
    exact ⟨_, rfl⟩

/-- Settles O58: the invariant gives the existing banks `exec_total` asks for. -/
theorem everyCallInItsDomainCompletes : Obligations.EveryCallInItsDomainCompletes := by
  intro s i hb hinv hw hs
  obtain ⟨hok, hbanks, -⟩ := hinv
  obtain ⟨-, -, -, -, -, hd, -⟩ := hok
  exact exec_total hb hbanks hd hw hs

end Sys2Proof.Machine
end

section
/-! PROOFS of the family 10_state.md: every step keeps the invariant (O53) and, without REMAP, the slot layout (O56); the two
ways one byte is reached, through aliased windows (O16) and through the page view (O7). What a call can do is said once
(`exec_effect`); each invariant is then a case analysis over the effects. -/

namespace Sys2Proof.Machine

/-! ### What a call can do -/

/-- Everything a call that does not stop can do to the state, by the items it writes; `outside` writes at most the border
colour, the power bit, the CPU core's component and the model's own `result` and `draws`. -/
inductive CallEffect (s : State) : Instr → State → Prop where
  | stores {i : Instr} {u : State} (r : Result) (h : StoresOnly s u) : CallEffect s i (u.returning r)
  | remaps {k b : Nat} {p : Policy} (r : Result) (hb : b < s.cfg.numBanks) :
      CallEffect s (.remap k b p) ((remap s (BitVec.ofNat 2 k) b p).1.returning r)
  | fetches {addr : Va} {u : State} (r : Result) (h : dispatchTraps s addr s.cfg.trapTable = .next u) :
      CallEffect s (.fetchOpcode addr) (u.returning r)
  | banks (v : Byte) : CallEffect s (.bankWrite v) ((bankWrite s v).returning .unit)
  | portOuts (port : Word) (v : Byte) : CallEffect s (.portOut port v) ((portOut s port v).returning .unit)
  | resets (w : Variant) : CallEffect s (.reset w) ((resetBlock s w).returning .unit)
  | powersOn (w : Variant) : CallEffect s (.powerOn w) ((powerOn s w).returning .unit)
  | renders (index : Nat) (r : Result) : CallEffect s (.renderScanline index) ((tickedFor s index).returning r)
  | outside {i : Instr} {t : State}
      (h : t = { s with borderColor := t.borderColor, powered := t.powered, cpu := t.cpu, result := t.result,
                        draws := t.draws }) : CallEffect s i t

/-- What a handler's call does is an effect of any call: the CPU bus calls do the same under another name. -/
theorem ActionEffect.callEffect {s t : State} {i j : Instr} (h : ActionEffect s (.call i) t)
    (hij : ∀ k b p, i = .remap k b p → j = i) : CallEffect s j t := by
  cases h with
  | stores r h => exact .stores r h
  | remaps r hb => rw [hij _ _ _ rfl]; exact .remaps r hb
  | resumes x => exact .outside rfl

theorem exec_effect_of_handlerMayCall {i : Instr} (hm : handlerMayCall i = true) {s t : State}
    (h : exec i s = .next t) : ActionEffect s (.call i) t := by
  rw [exec_of_handlerMayCall hm] at h
  exact runAction_effect (a := .call i) (whenBooted_next h).2

theorem renderScanline_effect {s t : State} {index : Nat} (h : renderScanline s index = .next t) :
    CallEffect s (.renderScanline index) t := by
  obtain ⟨-, ⟨-, rfl⟩ | ⟨-, row, -, rfl⟩⟩ := renderScanline_next h
  · exact .outside rfl
  · exact .renders index _

/-- Every call that completes has one of the effects. -/
theorem exec_effect {i : Instr} {s t : State} (h : exec i s = .next t) : CallEffect s i t := by
  cases i
  case translate | readByte | writeByte | readWord | writeWord | remap | resumeAt | createHeaderBlock | writeBlock =>
    exact (exec_effect_of_handlerMayCall rfl h).callEffect fun _ _ _ _ => rfl
  case cpuRead => rw [exec_cpuRead] at h; exact (exec_effect_of_handlerMayCall rfl h).callEffect nofun
  case cpuWrite => rw [exec_cpuWrite] at h; exact (exec_effect_of_handlerMayCall rfl h).callEffect nofun
  case reset w => obtain ⟨-, ⟨⟩⟩ := whenBooted_next h; exact .resets w
  case powerOn w => cases h; exact .powersOn w
  case bankWrite v => obtain ⟨-, ⟨⟩⟩ := whenBooted_next h; exact .banks v
  case portOut port v => obtain ⟨-, ⟨⟩⟩ := whenBooted_next h; exact .portOuts port v
  case fetchOpcode addr =>
    obtain ⟨u, hu, -, rfl⟩ := fetchOpcode_next (whenBooted_next h).2
    exact .fetches _ hu
  case renderScanline => exact renderScanline_effect (whenBooted_next h).2
  case powerOff | portIn => obtain ⟨-, ⟨⟩⟩ := whenBooted_next h; exact .outside rfl
  case attrDecode => cases h; exact .outside rfl
  case setBorder =>
    obtain ⟨-, h⟩ := whenBooted_next h
    split at h <;> cases h
    exact .outside rfl
  case lineOffset =>
    simp only [exec, execLineOffset] at h
    split at h <;> cases h
    exact .outside rfl

/-- Everything a step that does not stop can do: nothing, or the effect of the oldest call on the state without it. -/
theorem step_effect {s t : State} (h : step s = .next t) :
    t = s ∨ ∃ r u i, takeCall s = some (r, u) ∧ decode r = .ok i ∧ u = { s with pending := u.pending } ∧
      CallEffect u i t := by
  obtain ⟨-, rfl⟩ | ⟨r, u, i, hr, hd, hx⟩ := step_cases h
  · exact .inl rfl
  · exact .inr ⟨r, u, i, hr, hd, (takeCall_some hr).2, exec_effect hx⟩

/-! ### The invariant -/

/-- Under admissible parameters the alternate ROMs the banking controller selects exist. -/
theorem romOfBit_lt {c : Config} (h : c.Ok) (bit : Bool) : romOfBit c bit < c.numBanks := by
  obtain ⟨hn, -⟩ := h
  simp only [romOfBit, romAlt0, romAlt1]
  split <;> split <;> omega

theorem bootRom_lt {c : Config} (h : c.Ok) (w : Variant) : bootRom c w < c.numBanks := by
  cases w with
  | simple => obtain ⟨hn, -⟩ := h; simp only [bootRom, romPrimary]; omega
  | banked => exact romOfBit_lt h false

theorem StoresOnly.inv {s t : State} (h : StoresOnly s t) (hs : s.Inv) : t.Inv := by
  obtain ⟨hok, hbanks, hrom, hwf, hin, hcount⟩ := hs
  rw [h.eq]
  exact ⟨hok, hbanks, hrom, h.wf hwf, fun c hc => (h.inPool c hc).elim (hin c) id, hcount⟩

theorem remap_inv {s : State} (hs : s.Inv) (i : BitVec 2) {b : Nat} {p : Policy} (hb : b < s.cfg.numBanks) :
    (remap s i b p).1.Inv := by
  obtain ⟨hok, hbanks, hrest⟩ := hs
  exact ⟨hok, BanksExist.set hbanks i hb, hrest⟩

theorem ActionEffect.inv {s t : State} {a : HandlerAction} (h : ActionEffect s a t) (hs : s.Inv) : t.Inv := by
  cases h with
  | stores r h => exact h.inv hs
  | remaps r hb => exact remap_inv hs _ hb
  | resumes x => exact hs
  | setsRegs regs => exact hs
  | setsHost host => exact hs

theorem dispatchTraps_inv {s t : State} {addr : Va} {es : List TrapEntry} (h : dispatchTraps s addr es = .next t)
    (hs : s.Inv) : t.Inv :=
  dispatchTraps_keeps (P := State.Inv) (ok := fun _ => True)
    (fun _ _ _ _ he hs => he.inv hs) (fun _ _ _ hs => hs) (fun _ _ _ _ _ _ => trivial) h hs

theorem bankWrite_inv {s : State} (hs : s.Inv) (v : Byte) : (bankWrite s v).Inv := by
  rcases bankWrite_cases s v with ⟨-, h⟩ | ⟨-, h⟩ <;> rw [h]
  · exact hs
  · obtain ⟨hok, ⟨-, h1, h2, -⟩, -, hpool⟩ := hs
    have hrom := romOfBit_lt hok (bankRom v)
    have hram : (bankRam v).toNat < s.cfg.numBanks := by
      have := (bankRam v).isLt
      have := hok.1
      omega
    exact ⟨hok, ⟨hrom, h1, h2, hram⟩, hrom, hpool⟩

theorem portOut_inv {s : State} (hs : s.Inv) (port : Word) (v : Byte) : (portOut s port v).Inv := by
  simp only [portOut]
  split
  · exact bankWrite_inv hs v
  · exact hs

theorem resetBlock_inv {s : State} (hs : s.Inv) (w : Variant) : (resetBlock s w).Inv := by
  obtain ⟨hok, -, -, hwf, hin, hcount⟩ := hs
  obtain ⟨-, h1, h2, h3, -⟩ := id hok
  have hrom := bootRom_lt hok w
  have hram {b : Nat} (h : b < s.cfg.numBanks - 4) : b < s.cfg.numBanks := h.trans_le (Nat.sub_le _ _)
  exact ⟨hok, ⟨hrom, hram h1, hram h2, hram h3⟩, hrom, Memory.wf_zeroBelow hwf _,
    fun c hc => hin c (Memory.mem_zeroBelow hc), hcount⟩

theorem powerOn_inv {s : State} (hs : s.Inv) (w : Variant) : (powerOn s w).Inv := by
  obtain ⟨hok, hbanks, hrom, hwf, hin, -⟩ := resetBlock_inv hs w
  exact ⟨hok, hbanks, hrom, hwf, hin, Nat.zero_lt_succ 18⟩

theorem frameTick_inv {s : State} (hs : s.Inv) : (frameTick s).Inv := by
  obtain ⟨hok, hbanks, hrom, hwf, hin, hcount⟩ := hs
  rcases frameTick_cases s with ⟨-, h⟩ | ⟨hne, h⟩ <;> rw [h]
  · exact ⟨hok, hbanks, hrom, hwf, hin, Nat.zero_lt_succ 18⟩
  · exact ⟨hok, hbanks, hrom, hwf, hin, Nat.lt_of_le_of_ne hcount hne⟩

theorem tickedFor_inv {s : State} (hs : s.Inv) (index : Nat) : (tickedFor s index).Inv := by
  simp only [tickedFor]
  split
  · exact frameTick_inv hs
  · exact hs

theorem CallEffect.inv {s t : State} {i : Instr} (h : CallEffect s i t) (hs : s.Inv) : t.Inv := by
  cases h with
  | stores r h => exact h.inv hs
  | remaps r hb => exact remap_inv hs _ hb
  | fetches r h => have hu := dispatchTraps_inv h hs; exact hu
  | banks v => exact bankWrite_inv hs v
  | portOuts port v => exact portOut_inv hs port v
  | resets w => exact resetBlock_inv hs w
  | powersOn w => exact powerOn_inv hs w
  | renders index r => exact tickedFor_inv hs index
  | outside h => rw [h]; exact hs

/-- Settles O53: an idle step keeps the state, and each effect of a call keeps the invariant. -/
theorem everyStepKeepsTheInvariant : Obligations.EveryStepKeepsTheInvariant := by
  intro s t hs h
  obtain rfl | ⟨r, u, i, -, -, hu, he⟩ := step_effect h
  · exact hs
  · refine he.inv ?_
    rw [hu]
    exact hs

/-! ### The slot layout -/

theorem StoresOnly.slotLayout {s t : State} {v : Variant} (h : StoresOnly s t) (hs : s.SlotLayout v) :
    t.SlotLayout v := by
  rw [h.eq]
  exact hs

/-- A handler's action that is no REMAP keeps the layout. -/
theorem ActionEffect.slotLayout {s t : State} {a : HandlerAction} {v : Variant} (h : ActionEffect s a t)
    (ha : actionIsRemap a = false) (hs : s.SlotLayout v) : t.SlotLayout v := by
  cases h with
  | stores r h => exact h.slotLayout hs
  | remaps r hb => cases ha
  | resumes x => exact hs
  | setsRegs regs => exact hs
  | setsHost host => exact hs

theorem dispatchTraps_slotLayout {s t : State} {addr : Va} {es : List TrapEntry} {v : Variant}
    (hk : ∀ e ∈ es, HandlerKeepsMapping e.handler) (h : dispatchTraps s addr es = .next t) (hs : s.SlotLayout v) :
    t.SlotLayout v :=
  dispatchTraps_keeps (P := State.SlotLayout v) (ok := fun a => actionIsRemap a = false)
    (fun _ _ _ ha he hs => he.slotLayout ha hs) (fun _ _ _ hs => hs) (fun e he _ => hk e he) h hs

/-- The banking controller maps one of the alternate ROMs. -/
theorem romOfBit_isAlternate (c : Config) (bit : Bool) : romOfBit c bit = romAlt0 c ∨ romOfBit c bit = romAlt1 c := by
  cases bit with
  | false => exact .inl rfl
  | true => exact .inr rfl

/-- The closed latch makes BANK_WRITE a no-op in the simple variant; in the banked one it maps an alternate ROM and one of
the RAM banks 0 to 7 (41_banking.md R104). -/
theorem bankWrite_slotLayout {s : State} {v : Variant} (hs : s.SlotLayout v) (b : Byte) :
    (bankWrite s b).SlotLayout v := by
  rcases bankWrite_cases s b with ⟨-, h⟩ | ⟨hopen, h⟩ <;> rw [h]
  · exact hs
  · obtain ⟨-, h1, h2, -, hsimple, -⟩ := hs
    cases v with
    | simple =>
      obtain ⟨-, -, hclosed⟩ := hsimple rfl
      cases hclosed.symm.trans hopen
    | banked =>
      have hram : (bankRam b).toNat ≤ 7 := Nat.le_of_lt_succ (bankRam b).isLt
      exact ⟨rfl, h1, h2, rfl, nofun, fun _ => ⟨romOfBit_isAlternate s.cfg (bankRom b), .inr hram⟩⟩

theorem portOut_slotLayout {s : State} {v : Variant} (hs : s.SlotLayout v) (port : Word) (b : Byte) :
    (portOut s port b).SlotLayout v := by
  simp only [portOut]
  split
  · exact bankWrite_slotLayout hs b
  · exact hs

/-- RESET leaves the layout of the variant it names, whatever the state before. -/
theorem resetBlock_slotLayout (s : State) (w : Variant) : (resetBlock s w).SlotLayout w := by
  cases w with
  | simple => exact ⟨rfl, rfl, rfl, rfl, fun _ => ⟨rfl, rfl, rfl⟩, nofun⟩
  | banked => exact ⟨rfl, rfl, rfl, rfl, nofun, fun _ => ⟨.inl rfl, .inl rfl⟩⟩

theorem powerOn_slotLayout (s : State) (w : Variant) : (powerOn s w).SlotLayout w := resetBlock_slotLayout s w

theorem tickedFor_slotLayout {s : State} {v : Variant} (hs : s.SlotLayout v) (index : Nat) :
    (tickedFor s index).SlotLayout v := by
  rw [tickedFor_frame]
  exact hs

/-- A call that is no REMAP keeps the layout, or is a RESET or POWER_ON that leaves the one of its own variant. -/
theorem CallEffect.slotLayout {s t : State} {i : Instr} {v : Variant} (h : CallEffect s i t)
    (hi : ∀ k b p, i ≠ .remap k b p) (hk : TrapsKeepMapping s.cfg) (hs : s.SlotLayout v) :
    t.SlotLayout v ∨ ∃ w, (i = .reset w ∨ i = .powerOn w) ∧ t.SlotLayout w := by
  cases h with
  | stores r h => exact .inl (h.slotLayout hs)
  | remaps r hb => exact absurd rfl (hi _ _ _)
  | fetches r h => have hu := dispatchTraps_slotLayout hk h hs; exact .inl hu
  | banks b => exact .inl (bankWrite_slotLayout hs b)
  | portOuts port b => exact .inl (portOut_slotLayout hs port b)
  | resets w => exact .inr ⟨w, .inl rfl, resetBlock_slotLayout s w⟩
  | powersOn w => exact .inr ⟨w, .inr rfl, powerOn_slotLayout s w⟩
  | renders index r => exact .inl (tickedFor_slotLayout hs index)
  | outside h => rw [h]; exact .inl hs

/-- Settles O56: an idle step keeps the state, and each effect of a call other than REMAP keeps the layout or sets that of
the variant the call names. -/
theorem stepsWithoutRemapKeepTheSlotLayout : Obligations.StepsWithoutRemapKeepTheSlotLayout := by
  intro s t v _ hs hk hnext h
  obtain rfl | ⟨r, u, i, hr, hd, hu, he⟩ := step_effect h
  · exact .inl hs
  · have hi : ∀ k b p, i ≠ .remap k b p := fun k b p hrm => hnext r u k b p hr (hrm ▸ hd)
    have hku : TrapsKeepMapping u.cfg := by rw [hu]; exact hk
    have hsu : u.SlotLayout v := by rw [hu]; exact hs
    obtain hkept | ⟨w, rfl | rfl, ht⟩ := he.slotLayout hi hku hsu
    · exact .inl hkept
    · exact .inr ⟨w, r, u, hr, .inl hd, ht⟩
    · exact .inr ⟨w, r, u, hr, .inr hd, ht⟩

/-! ### One storage under every view -/

/-- The offset field of an address is its value modulo a bank's size (30_encoding.md R61). -/
theorem vaOffset_toNat (va : Va) : (vaOffset va).toNat = va.toNat % 16384 := by
  simp [vaOffset, BitVec.extractLsb'_toNat]

/-- Two addresses with the same bank and offset translate to one arena index. -/
theorem physOf_eq_of_alias {s : State} {va vb : Va} (hb : (s.slotOf vb).bank = (s.slotOf va).bank)
    (ho : va.toNat % 16384 = vb.toNat % 16384) : s.physOf vb = s.physOf va := by
  simp only [State.physOf, hb, vaOffset_toNat, ho]

/-- Settles O16: the store changes no slot, so the other address still translates to the index stored to. -/
theorem aliasedWindowsShareTheirBytes : Obligations.AliasedWindowsShareTheirBytes := by
  intro s va vb v hboot hp hb hbank ho
  have hw : exec (.writeByte va v) s = .next ((s.withPool (Memory.write s.pool (s.physOf va) v)).returning .unit) := by
    rw [exec, execWriteByte, whenBooted_of hboot, writeByte_readWrite hp hb, answerState_ok]
  refine ⟨_, _, hw, (whenBooted_of hboot _).trans (answerByte_ok (hbank ▸ hb)), ?_⟩
  show Result.byte (Memory.read (Memory.write s.pool (s.physOf va) v) (s.physOf vb)) = .byte v
  rw [physOf_eq_of_alias hbank ho, Memory.read_write, if_pos rfl]

/-- Settles O7: both views name one arena index, as two pages of 8192 bytes make a bank. -/
theorem pageViewAliasesItsBank : Obligations.PageViewAliasesItsBank := by
  intro s p q
  have hindex : pagePhys p q = phys (p / 2) (p % 2 * 8192 + q) := by
    simp only [pagePhys, phys]
    omega
  simp only [State.pageByte, State.poolByte, hindex]

end Sys2Proof.Machine
end

section
/-! PROOFS of the family 20_memory.md: translation splits the address (O8), a written byte reads back (O12), the two bytes of
a word lie apart (O15), and the display decoder ignores the mapping (O42). O8's injectivity and O15 turn on one fact: an arena
index keeps the offset of the address it came from (`physOf_mod`). -/

namespace Sys2Proof.Machine

/-! ### Translation -/

/-- The slot field of an address counts the banks' sizes below it (30_encoding.md R61). -/
theorem vaSlot_toNat (va : Va) : (vaSlot va).toNat = va.toNat / 16384 := by
  simp only [vaSlot, BitVec.extractLsb'_toNat, Nat.shiftRight_eq_div_pow]
  omega

/-- An address is its two fields (30_encoding.md R61). -/
theorem vaOf_vaSlot_vaOffset (va : Va) : vaOf (vaSlot va) (vaOffset va) = va :=
  (BitVec.extractLsb'_append_extractLsb'_eq_extractLsb' rfl).trans BitVec.extractLsb'_eq_self

/-- The register of an address is that of the quarter of the address space it lies in. -/
theorem slotOf_of_quarter (s : State) {va : Va} {i : BitVec 2} (h : va.toNat / 16384 = i.toNat) :
    s.slotOf va = s.slots.get i := by
  rw [State.slotOf, BitVec.eq_of_toNat_eq ((vaSlot_toNat va).trans h)]

/-- Translation in numbers (20_memory.md R52). -/
theorem physOf_eq (s : State) (va : Va) : s.physOf va = (s.slotOf va).bank * 16384 + va.toNat % 16384 := by
  rw [State.physOf, phys, vaOffset_toNat]

/-- An arena index keeps the offset of every address that translates to it. -/
theorem physOf_mod (s : State) (va : Va) : s.physOf va % 16384 = va.toNat % 16384 := by
  rw [physOf_eq, Nat.mul_add_mod_self_right, Nat.mod_mod]

theorem slotOf_eq_register (s : State) (va : Va) :
    s.slotOf va =
      (if va.toNat < 0x4000 then s.slots.s0 else if va.toNat < 0x8000 then s.slots.s1
        else if va.toNat < 0xC000 then s.slots.s2 else s.slots.s3) := by
  have hlt := va.isLt
  split_ifs with h0 h1 h2
  · exact slotOf_of_quarter (i := 0#2) s (by simp; omega)
  · exact slotOf_of_quarter (i := 1#2) s (by simp; omega)
  · exact slotOf_of_quarter (i := 2#2) s (by simp; omega)
  · exact slotOf_of_quarter (i := 3#2) s (by simp; omega)

/-- Within a slot no two addresses meet: the arena index gives the offset, the slot the rest. -/
theorem physOf_injective_in_slot {s : State} {va vb : Va} (hslot : vaSlot va = vaSlot vb)
    (hphys : s.physOf va = s.physOf vb) : va = vb := by
  have hoffset : vaOffset va = vaOffset vb := by
    apply BitVec.eq_of_toNat_eq
    rw [vaOffset_toNat, vaOffset_toNat, ← physOf_mod s va, ← physOf_mod s vb, hphys]
  rw [← vaOf_vaSlot_vaOffset va, ← vaOf_vaSlot_vaOffset vb, hslot, hoffset]

/-- Settles O8: the fields in numbers, the register by quarters, and injectivity from the index's offset. -/
theorem translationSplitsTheAddress : Obligations.TranslationSplitsTheAddress :=
  ⟨fun s va => ⟨vaSlot_toNat va, vaOffset_toNat va, (vaOffset va).isLt, vaOf_vaSlot_vaOffset va,
    slotOf_eq_register s va, physOf_eq s va⟩,
   fun _ _ _ => physOf_injective_in_slot⟩

/-- Settles O15: two addresses in a row have different offsets, in whatever slots they lie. -/
theorem wordHalvesNeverShareAByte : Obligations.WordHalvesNeverShareAByte := by
  intro s va hphys
  have hoffset : va.toNat % 16384 = (va + 1#16).toNat % 16384 := by
    rw [← physOf_mod s va, ← physOf_mod s (va + 1#16), hphys]
  rw [BitVec.toNat_add, show (1#16).toNat = 1 from rfl] at hoffset
  omega

/-! ### A store, then a read -/

theorem exec_readByte_ok {s : State} {va : Va} (hboot : s.booted = true)
    (hb : (s.slotOf va).bank < s.cfg.numBanks) :
    exec (.readByte va) s = .next (s.returning (.byte (Memory.read s.pool (s.physOf va)))) := by
  rw [exec, execReadByte, whenBooted_of hboot, answerByte_ok hb]

theorem exec_writeByte_readOnly {s : State} {va : Va} (hboot : s.booted = true)
    (hp : (s.slotOf va).policy = .readOnly) (v : Byte) :
    exec (.writeByte va v) s = .next (s.returning .unit) := by
  rw [exec, execWriteByte, whenBooted_of hboot, writeByte_readOnly hp, answerState_ok]

theorem exec_writeByte_readWrite {s : State} {va : Va} (hboot : s.booted = true)
    (hp : (s.slotOf va).policy = .readWrite) (hb : (s.slotOf va).bank < s.cfg.numBanks) (v : Byte) :
    exec (.writeByte va v) s = .next ((s.withPool (Memory.write s.pool (s.physOf va) v)).returning .unit) := by
  rw [exec, execWriteByte, whenBooted_of hboot, writeByte_readWrite hp hb, answerState_ok]

/-- Settles O12: neither outcome of the store moves the address, so the read is of the byte stored to, or kept. -/
theorem writtenByteReadsBack : Obligations.WrittenByteReadsBack := by
  intro s va v hboot hb
  cases hp : (s.slotOf va).policy with
  | readOnly => exact ⟨_, _, exec_writeByte_readOnly hboot hp v, exec_readByte_ok hboot hb, rfl⟩
  | readWrite =>
    refine ⟨_, _, exec_writeByte_readWrite hboot hp hb v, exec_readByte_ok hboot hb, ?_⟩
    show Result.byte (Memory.read (Memory.write s.pool (s.physOf va) v) (s.physOf va)) = .byte v
    rw [Memory.read_write, if_pos rfl]

/-! ### The decoder and the mapping -/

/-- The state with another mapping and other banking state: what the decoder must not read (20_memory.md R43, 41_banking.md
R103). -/
def State.withBanking (s : State) (m : SlotMap) (e v : Bool) (r : Nat) : State :=
  { s with slots := m, bankingEnabled := e, videoSelect := v, currentRom := r }

section
variable (s : State) (m : SlotMap) (e v : Bool) (r : Nat)

theorem frameTick_withBanking : frameTick (s.withBanking m e v r) = (frameTick s).withBanking m e v r := by
  rcases frameTick_cases s with ⟨hwrap, h⟩ | ⟨hwrap, h⟩ <;> rw [h]
  · exact if_pos hwrap
  · exact if_neg hwrap

theorem tickedFor_withBanking (index : Nat) :
    tickedFor (s.withBanking m e v r) index = (tickedFor s index).withBanking m e v r := by
  simp only [tickedFor]
  split
  · exact frameTick_withBanking s m e v r
  · rfl

/-- A row is read from the parameters, the pool, the flash bit and the border colour. -/
theorem renderRow_withBanking (index : Nat) : renderRow (s.withBanking m e v r) index = renderRow s index := rfl

end

/-- A scanline in range emits nothing while not powered. -/
theorem renderScanline_unpowered {s : State} {index : Nat} (hi : index < s.cfg.height) (hp : s.powered = false) :
    renderScanline s index = .next (s.returning .noRow) := by
  simp [renderScanline, hi, hp]

theorem renderScanline_withBanking {s t : State} {index : Nat} (h : renderScanline s index = .next t)
    (m : SlotMap) (e v : Bool) (r : Nat) :
    renderScanline (s.withBanking m e v r) index = .next (t.withBanking m e v r) := by
  obtain ⟨hi, ⟨hp, rfl⟩ | ⟨hp, row, hrow, rfl⟩⟩ := renderScanline_next h
  · exact renderScanline_unpowered hi hp
  · have hticked := tickedFor_withBanking s m e v r index
    have hrow' : renderRow (tickedFor (s.withBanking m e v r) index) index = .ok row := by
      rw [hticked, renderRow_withBanking, hrow]
    rw [renderScanline_ok (s := s.withBanking m e v r) hi hp hrow', hticked]
    rfl

/-- Settles O42: the tick and the row commute with the change of mapping, on each way a scanline can complete. -/
theorem displayIgnoresTheMapping : Obligations.DisplayIgnoresTheMapping := by
  intro s t index m e v r h
  obtain ⟨hboot, h⟩ := whenBooted_next h
  exact (whenBooted_of hboot _).trans (renderScanline_withBanking h m e v r)

end Sys2Proof.Machine
end

section
/-! PROOFS of the family 30_encoding.md: a call and its record determine each other (O1, O2, and O3 by running the decoder),
the fields of the bit-encoded operands lie in the rules' bit ranges (O4, O5, O6), and bits 7:6 of a banking byte are ignored
(O20). Records: each operand reader is inverted once, as an iff that serves both directions. Layouts: each field and each
assembly is given once as a number, and the rest is arithmetic on those numbers. -/

namespace Sys2Proof.Machine

/-! ### Operand readers -/

/-- A number reads as the operand that has that number, and as no other. -/
@[simp] theorem readBits_ok_iff {w n : Nat} {x : BitVec w} : readBits w n = .ok x ↔ x.toNat = n := by
  simp only [readBits]
  split
  · next h =>
    rw [Except.ok.injEq, ← BitVec.toNat_inj, BitVec.toNat_ofNat, Nat.mod_eq_of_lt h]
    exact eq_comm
  · next h => exact ⟨nofun, fun hx => absurd (hx ▸ x.isLt) h⟩

/-- A byte sequence is read byte by byte, and the reading fails as soon as one byte does. -/
theorem readByteList_cons_ok_iff {n : Nat} {ns : List Nat} {bs : List Byte} :
    readByteList (n :: ns) = .ok bs ↔ ∃ b cs, readBits 8 n = .ok b ∧ readByteList ns = .ok cs ∧ b :: cs = bs := by
  cases hb : readBits 8 n <;> cases hcs : readByteList ns <;> simp [readByteList, hb, hcs]

@[simp] theorem readByteList_ok_iff {ns : List Nat} {bs : List Byte} : readByteList ns = .ok bs ↔ byteCodes bs = ns := by
  induction ns generalizing bs with
  | nil => cases bs <;> simp [readByteList, byteCodes]
  | cons n ns ih =>
    rw [readByteList_cons_ok_iff]
    simp only [readBits_ok_iff, ih, byteCodes, List.map_eq_cons_iff]
    constructor
    · rintro ⟨b, cs, hb, hcs, rfl⟩
      exact ⟨b, cs, rfl, hb, hcs⟩
    · rintro ⟨b, cs, rfl, hb, hcs⟩
      exact ⟨b, cs, hb, hcs, rfl⟩

@[simp] theorem readPolicy_ok_iff {n : Nat} {p : Policy} : readPolicy n = .ok p ↔ policyCode p = n := by
  cases p <;> rcases n with _ | _ | n <;> simp [readPolicy, policyCode]

@[simp] theorem readVariant_ok_iff {n : Nat} {v : Variant} : readVariant n = .ok v ↔ variantCode v = n := by
  cases v <;> rcases n with _ | _ | n <;> simp [readVariant, variantCode]

@[simp] theorem readBool_ok_iff {n : Nat} {f : Bool} : readBool n = .ok f ↔ f.toNat = n := by
  cases f <;> rcases n with _ | _ | n <;> simp [readBool]

/-! ### Records -/

/-- Settles O1: each operand reader reads back the number its operand was written as. -/
theorem decodeReadsBackEveryCall : Obligations.DecodeReadsBackEveryCall := by
  intro i
  show decodeCall (selector i) (encodeOperands i) = .ok i
  cases i <;> simp [selector, encodeOperands, decodeCall, Except.bind_ok_iff, pure, Except.pure]

/-- A call that decodes has the selector and the operands it was read from: one case for each line of the list of
30_encoding.md R72, by how many operands are read through a reader. -/
theorem decodeCall_ok {sel : Nat} {ops : List Nat} {i : Instr} (h : decodeCall sel ops = .ok i) :
    encode i = sel :: ops := by
  unfold decodeCall at h
  split at h
  case h_23 => cases h
  all_goals
    simp only [Except.bind_ok_iff, pure, Except.pure, Except.ok.injEq, readBits_ok_iff, readByteList_ok_iff,
      readPolicy_ok_iff, readVariant_ok_iff, readBool_ok_iff] at h
  case h_9 | h_17 | h_18 | h_21 => subst h; rfl
  case h_19 => obtain ⟨t, rfl, kind, rfl, name, rfl, len, rfl, p1, rfl, p2, rfl, rfl⟩ := h; rfl
  case h_3 | h_5 | h_13 | h_15 | h_20 | h_22 => obtain ⟨a, rfl, b, rfl, rfl⟩ := h; rfl
  all_goals obtain ⟨a, rfl, rfl⟩ := h; rfl

/-- Settles O2: each operand reader accepts only the number its operand is written as (`decodeCall_ok`). -/
theorem decodedRecordIsTheEncoding : Obligations.DecodedRecordIsTheEncoding := by
  intro r i h
  cases r with
  | nil => cases h
  | cons sel ops => exact decodeCall_ok h

/-- Settles O3: the decoder runs on each record. -/
theorem recordsWrittenFromTheListDecode : Obligations.RecordsWrittenFromTheListDecode :=
  ⟨rfl, rfl, rfl, rfl, rfl, rfl, rfl, rfl, rfl, rfl⟩

/-! ### Fields and assemblies as numbers -/

/-- A bit of a word in numbers. -/
theorem getLsbD_toNat {w : Nat} (x : BitVec w) (i : Nat) : (x.getLsbD i).toNat = x.toNat / 2 ^ i % 2 := by
  rw [← BitVec.testBit_toNat, Nat.toNat_testBit]

/-- A field of a word in numbers. -/
theorem extractLsb'_toNat_div {w : Nat} (x : BitVec w) (start len : Nat) :
    (x.extractLsb' start len).toNat = x.toNat / 2 ^ start % 2 ^ len := by
  rw [BitVec.extractLsb'_toNat, Nat.shiftRight_eq_div_pow]

/-- Two fields put together, in numbers. -/
theorem append_toNat {m n : Nat} (x : BitVec m) (y : BitVec n) : (x ++ y).toNat = x.toNat * 2 ^ n + y.toNat := by
  rw [BitVec.toNat_append, ← Nat.shiftLeft_add_eq_or_of_lt y.isLt, Nat.shiftLeft_eq]

/-- A flag holds exactly when its number is 1. -/
theorem true_iff_of_toNat {f : Bool} {n : Nat} (h : f.toNat = n) : f = true ↔ n = 1 := by
  rw [← h, Bool.toNat_eq_one]

/-- A flag is determined by its number. -/
theorem flag_toNat_inj {f g : Bool} : f.toNat = g.toNat ↔ f = g := by
  cases f <;> cases g <;> decide

/-! ### The banking byte (30_encoding.md R62) -/

theorem bankRam_toNat (v : Byte) : (bankRam v).toNat = v.toNat % 8 := by
  simp [bankRam]

theorem bankVid_toNat (v : Byte) : (bankVid v).toNat = v.toNat / 8 % 2 := getLsbD_toNat v 3

theorem bankRom_toNat (v : Byte) : (bankRom v).toNat = v.toNat / 16 % 2 := getLsbD_toNat v 4

theorem bankLock_toNat (v : Byte) : (bankLock v).toNat = v.toNat / 32 % 2 := getLsbD_toNat v 5

theorem bankingByte_toNat (x : BitVec 2) (l r d : Bool) (b : BitVec 3) :
    (bankingByte x l r d b).toNat = x.toNat * 64 + l.toNat * 32 + r.toNat * 16 + d.toNat * 8 + b.toNat := by
  simp only [bankingByte, append_toNat, BitVec.toNat_ofBool]
  omega

theorem bankingByte_of_fields (v : Byte) :
    bankingByte (BitVec.ofNat 2 (v.toNat / 64)) (bankLock v) (bankRom v) (bankVid v) (bankRam v) = v := by
  rw [← BitVec.toNat_inj, bankingByte_toNat, bankLock_toNat, bankRom_toNat, bankVid_toNat, bankRam_toNat,
    BitVec.toNat_ofNat]
  omega

theorem fields_of_bankingByte (x : BitVec 2) (l r d : Bool) (b : BitVec 3) :
    bankRam (bankingByte x l r d b) = b ∧ bankVid (bankingByte x l r d b) = d ∧
    bankRom (bankingByte x l r d b) = r ∧ bankLock (bankingByte x l r d b) = l := by
  have hl := l.toNat_le
  have hr := r.toNat_le
  have hd := d.toNat_le
  refine ⟨?_, ?_, ?_, ?_⟩
  · rw [← BitVec.toNat_inj, bankRam_toNat, bankingByte_toNat]; omega
  · rw [← flag_toNat_inj, bankVid_toNat, bankingByte_toNat]; omega
  · rw [← flag_toNat_inj, bankRom_toNat, bankingByte_toNat]; omega
  · rw [← flag_toNat_inj, bankLock_toNat, bankingByte_toNat]; omega

/-- Settles O4: the fields are the binary digits of the byte's number, and the assembly adds them up again. -/
theorem bankingByteFieldsLieAsTabulated : Obligations.BankingByteFieldsLieAsTabulated :=
  ⟨fun v => ⟨bankRam_toNat v, true_iff_of_toNat (bankVid_toNat v), true_iff_of_toNat (bankRom_toNat v),
    true_iff_of_toNat (bankLock_toNat v), bankingByte_of_fields v⟩, fields_of_bankingByte⟩

/-- BANK_WRITE uses nothing of its byte but the four fields (41_banking.md R101). -/
theorem bankWrite_congr {v w : Byte} (hram : bankRam v = bankRam w) (hvid : bankVid v = bankVid w)
    (hrom : bankRom v = bankRom w) (hlock : bankLock v = bankLock w) (s : State) : bankWrite s v = bankWrite s w := by
  simp only [bankWrite, latchAfter, hram, hvid, hrom, hlock]

/-- Settles O20: the four fields lie below bit 6, so they are those of the byte modulo 64. -/
theorem bankWriteIgnoresTheHighBits : Obligations.BankWriteIgnoresTheHighBits := by
  intro s v
  have hwrite : bankWrite s v = bankWrite s (BitVec.ofNat 8 (v.toNat % 64)) := by
    apply bankWrite_congr
    · rw [← BitVec.toNat_inj, bankRam_toNat, bankRam_toNat, BitVec.toNat_ofNat]; omega
    · rw [← flag_toNat_inj, bankVid_toNat, bankVid_toNat, BitVec.toNat_ofNat]; omega
    · rw [← flag_toNat_inj, bankRom_toNat, bankRom_toNat, BitVec.toNat_ofNat]; omega
    · rw [← flag_toNat_inj, bankLock_toNat, bankLock_toNat, BitVec.toNat_ofNat]; omega
  simp only [exec, execBankWrite, hwrite]

/-! ### The attribute byte and the palette index (30_encoding.md R63, R70) -/

theorem attrInk_toNat (a : Byte) : (attrInk a).toNat = a.toNat % 8 := by
  simp [attrInk]

theorem attrPaper_toNat (a : Byte) : (attrPaper a).toNat = a.toNat / 8 % 8 := extractLsb'_toNat_div a 3 3

theorem attrBright_toNat (a : Byte) : (attrBright a).toNat = a.toNat / 64 % 2 := getLsbD_toNat a 6

theorem attrFlash_toNat (a : Byte) : (attrFlash a).toNat = a.toNat / 128 % 2 := getLsbD_toNat a 7

theorem attrByteOf_toNat (f b : Bool) (p i : BitVec 3) :
    (attrByteOf f b p i).toNat = f.toNat * 128 + b.toNat * 64 + p.toNat * 8 + i.toNat := by
  simp only [attrByteOf, append_toNat, BitVec.toNat_ofBool]
  omega

theorem attrByteOf_of_fields (a : Byte) : attrByteOf (attrFlash a) (attrBright a) (attrPaper a) (attrInk a) = a := by
  rw [← BitVec.toNat_inj, attrByteOf_toNat, attrFlash_toNat, attrBright_toNat, attrPaper_toNat, attrInk_toNat]
  omega

theorem paletteIndex_eq_append (bright : Bool) (colour : BitVec 3) :
    paletteIndex bright colour = BitVec.ofBool bright ++ colour := by
  rw [← BitVec.toNat_inj, append_toNat, paletteIndex, BitVec.toNat_add, BitVec.toNat_setWidth]
  cases bright <;> simp <;> omega

/-- Settles O5: the fields are digits of the byte's number, which the assembly adds up again, and bright is the
palette index's highest bit. -/
theorem attributeByteFieldsLieAsTabulated : Obligations.AttributeByteFieldsLieAsTabulated :=
  ⟨fun a => ⟨attrInk_toNat a, attrPaper_toNat a, true_iff_of_toNat (attrBright_toNat a),
    true_iff_of_toNat (attrFlash_toNat a), attrByteOf_of_fields a⟩,
   paletteIndex_eq_append⟩

/-! ### The pixel offset (30_encoding.md R65) -/

/-- Settles O6: the line number's three fields, swapped, weigh what the interleave gives them. -/
theorem pixelOffsetIsTheFieldSwap : Obligations.PixelOffsetIsTheFieldSwap := by
  intro y c hy
  have hc := c.isLt
  simp only [append_toNat, extractLsb'_toNat_div, lineOffset, lineSegment, lineCell, lineLine]
  omega

end Sys2Proof.Machine
end

section
/-! PROOFS of the family 40_mmu.md: TRANSLATE (O9), the byte accesses (O10, O11), the word accesses (O13, O14), REMAP (O17) and
the first read after it (O18). WRITE_WORD is two byte writes in a row; that its second byte leaves the first alone is O15. -/

namespace Sys2Proof.Machine

/-! ### REMAP (R86, R87) -/

/-- REMAP of operands in range. -/
theorem exec_remap_ok {s : State} {i b : Nat} (hboot : s.booted = true) (hi : i < 4) (hb : b < s.cfg.numBanks)
    (p : Policy) :
    exec (.remap i b p) s =
      .next ((remap s (BitVec.ofNat 2 i) b p).1.returning (.bank (s.slots.get (BitVec.ofNat 2 i)).bank)) := by
  rw [exec, execRemap, whenBooted_of hboot, answerRemap_ok p hi hb]

theorem exec_remap_slotOutOfRange {s : State} {i : Nat} (hboot : s.booted = true) (hi : 4 ≤ i) (b : Nat) (p : Policy) :
    exec (.remap i b p) s = .refused .slotOutOfRange := by
  rw [exec, execRemap, whenBooted_of hboot, answerRemap, if_neg (Nat.not_lt.mpr hi)]

theorem exec_remap_bankOutOfRange {s : State} {i b : Nat} (hboot : s.booted = true) (hi : i < 4)
    (hb : s.cfg.numBanks ≤ b) (p : Policy) :
    exec (.remap i b p) s = .refused .bankOutOfRange := by
  rw [exec, execRemap, whenBooted_of hboot, answerRemap, if_pos hi, if_neg (Nat.not_lt.mpr hb)]

/-- The slot field of an address, as the number REMAP takes. -/
theorem vaSlot_eq_ofNat (va : Va) : vaSlot va = BitVec.ofNat 2 (va.toNat / 16384) := by
  rw [← vaSlot_toNat, BitVec.ofNat_toNat, BitVec.setWidth_eq]

/-- After REMAP of the slot an address falls in, the address has the new register. -/
theorem remap_slotOf_same (s : State) (va : Va) (b : Nat) (p : Policy) :
    (remap s (BitVec.ofNat 2 (va.toNat / 16384)) b p).1.slotOf va = ⟨b, p⟩ := by
  rw [State.slotOf, remap_slots, SlotMap.get_set, if_pos (vaSlot_eq_ofNat va)]

/-- Settles O18: REMAP changes the register of the address and no pool byte, so the read is of the new bank. -/
theorem remapIsSeenByTheNextRead : Obligations.RemapIsSeenByTheNextRead := by
  intro s va b p hboot hb
  have hi : va.toNat / 16384 < 4 := by
    have := va.isLt
    omega
  have hslot := remap_slotOf_same s va b p
  refine ⟨_, _, exec_remap_ok hboot hi hb p, exec_readByte_ok hboot ?_, ?_⟩
  · show ((remap s (BitVec.ofNat 2 (va.toNat / 16384)) b p).1.slotOf va).bank < s.cfg.numBanks
    rwa [hslot]
  · show Result.byte (Memory.read s.pool ((remap s (BitVec.ofNat 2 (va.toNat / 16384)) b p).1.physOf va)) = _
    rw [physOf_eq, hslot]

/-- Settles O17: in range one register is set, and either operand out of range is refused. -/
theorem remapReplacesOneSlot : Obligations.RemapReplacesOneSlot := by
  intro s i b p hboot
  refine ⟨fun hi hb => ⟨_, exec_remap_ok hboot hi hb p, rfl, fun j => ?_⟩,
    fun hi => exec_remap_slotOutOfRange hboot hi b p, fun hi hb => exec_remap_bankOutOfRange hboot hi hb p⟩
  have hj : j = BitVec.ofNat 2 i ↔ j.toNat = i := by
    rw [← BitVec.toNat_inj, BitVec.toNat_ofNat, Nat.mod_eq_of_lt hi]
  rw [State.returning_slots, remap_slots, SlotMap.get_set]
  simp only [hj]

/-! ### TRANSLATE and the byte accesses (R80 to R82) -/

/-- Settles O9: the offset field is the address modulo a bank's size. -/
theorem translateAnswersTheLocation : Obligations.TranslateAnswersTheLocation := by
  intro s va hboot
  have hoffset : vaOffset va = BitVec.ofNat 14 (va.toNat % 16384) := by
    rw [← vaOffset_toNat, BitVec.ofNat_toNat, BitVec.setWidth_eq]
  rw [exec, execTranslate, whenBooted_of hboot, ← hoffset]
  rfl

/-- Settles O10: the rule of READ_BYTE is the statement. -/
theorem readByteAnswersTheMappedByte : Obligations.ReadByteAnswersTheMappedByte :=
  fun _ _ hboot hb => exec_readByte_ok hboot hb

/-- Settles O11: the two policies, and the pool read after the write. -/
theorem writeByteStoresOrIsDiscarded : Obligations.WriteByteStoresOrIsDiscarded :=
  fun s va v hboot => ⟨fun hp hb =>
    ⟨_, exec_writeByte_readWrite hboot hp hb v, rfl, Memory.read_write s.pool (s.physOf va) v⟩,
    fun hp => exec_writeByte_readOnly hboot hp v⟩

/-! ### The word accesses (R83, R84) -/

theorem wordOf_eq_ofNat (hi lo : Byte) : wordOf hi lo = BitVec.ofNat 16 (hi.toNat * 256 + lo.toNat) := by
  have hh := hi.isLt
  have hl := lo.isLt
  rw [← BitVec.toNat_inj, wordOf, append_toNat, BitVec.toNat_ofNat]
  omega

theorem lowByte_eq_ofNat (w : Word) : lowByte w = BitVec.ofNat 8 (w.toNat % 256) := by
  rw [← BitVec.toNat_inj, lowByte, extractLsb'_toNat_div, BitVec.toNat_ofNat]
  omega

theorem highByte_eq_ofNat (w : Word) : highByte w = BitVec.ofNat 8 (w.toNat / 256) := by
  rw [← BitVec.toNat_inj, highByte, extractLsb'_toNat_div, BitVec.toNat_ofNat]
  omega

/-- Settles O13: each byte is read through its own slot, and the two together are the number. -/
theorem readWordIsLittleEndian : Obligations.ReadWordIsLittleEndian := by
  intro s va hboot hlo hhi
  rw [exec, execReadWord, whenBooted_of hboot, answerWord, readWord_ok hlo hhi, wordOf_eq_ofNat]
  rfl

/-- A byte write where the bank exists, both policies at once: it completes, and every index reads as it must. -/
theorem writeByte_reads {s : State} {va : Va} (hb : (s.slotOf va).bank < s.cfg.numBanks) (v : Byte) :
    ∃ t, writeByte s va v = .ok t ∧ ∀ a, Memory.read t.pool a =
      if a = s.physOf va ∧ (s.slotOf va).policy = .readWrite then v else Memory.read s.pool a := by
  cases hp : (s.slotOf va).policy with
  | readOnly => exact ⟨s, writeByte_readOnly hp v, by simp⟩
  | readWrite => exact ⟨_, writeByte_readWrite hp hb v, by simp⟩

/-- A word write where both banks exist: the two bytes lie apart, so each index reads as if written once. -/
theorem writeWord_reads {s : State} {va : Va} (hlo : (s.slotOf va).bank < s.cfg.numBanks)
    (hhi : (s.slotOf (va + 1#16)).bank < s.cfg.numBanks) (w : Word) :
    ∃ t, writeWord s va w = .ok t ∧ ∀ a, Memory.read t.pool a =
      if a = s.physOf va ∧ (s.slotOf va).policy = .readWrite then lowByte w
      else if a = s.physOf (va + 1#16) ∧ (s.slotOf (va + 1#16)).policy = .readWrite then highByte w
      else Memory.read s.pool a := by
  obtain ⟨u, hu, hureads⟩ := writeByte_reads hlo (lowByte w)
  have hkeep := writeByte_storesOnly hu
  rw [← hkeep.slotOf, ← hkeep.cfg] at hhi
  obtain ⟨t, ht, htreads⟩ := writeByte_reads hhi (highByte w)
  refine ⟨t, by rw [writeWord, Except.bind_ok_iff]; exact ⟨u, hu, ht⟩, fun a => ?_⟩
  rw [htreads, hureads, hkeep.slotOf, hkeep.physOf]
  by_cases ha : a = s.physOf va
  · have hne : a ≠ s.physOf (va + 1#16) := by
      rw [ha]
      exact wordHalvesNeverShareAByte s va
    simp only [hne, false_and, if_false]
  · simp only [ha, false_and, if_false]

/-- Settles O14: the two byte writes change the pool only, and each index reads as `writeWord_reads` says. -/
theorem writeWordStoresEachByteOnItsOwn : Obligations.WriteWordStoresEachByteOnItsOwn := by
  intro s va w hboot hlo hhi
  obtain ⟨t, ht, hreads⟩ := writeWord_reads hlo hhi w
  refine ⟨t.returning .unit, ?_, ?_, ?_⟩
  · rw [exec, execWriteWord, whenBooted_of hboot, ht, answerState_ok]
  · rw [(writeWord_storesOnly ht).eq]
    rfl
  · simpa only [State.returning_pool, lowByte_eq_ofNat, highByte_eq_ofNat] using hreads

end Sys2Proof.Machine
end

section
/-! PROOFS of the family 41_banking.md: what BANK_WRITE writes (O19), and that only a reset of the banked variant sets a
clear latch (O21). The latch is followed through the effects a call can have (`CallEffect`), BANK_WRITE through its two cases. -/

namespace Sys2Proof.Machine

/-! ### The latch (R102) -/

/-- No handler's action touches the latch. -/
theorem ActionEffect.bankingEnabled {s t : State} {a : HandlerAction} (h : ActionEffect s a t) :
    t.bankingEnabled = s.bankingEnabled := by
  cases h with
  | stores r h => rw [h.eq]; rfl
  | remaps r hb => rfl
  | resumes x => rfl
  | setsRegs regs => rfl
  | setsHost host => rfl

theorem dispatchTraps_bankingEnabled {s t : State} {addr : Va} {es : List TrapEntry}
    (h : dispatchTraps s addr es = .next t) : t.bankingEnabled = s.bankingEnabled :=
  dispatchTraps_keeps (P := fun u => u.bankingEnabled = s.bankingEnabled) (ok := fun _ => True)
    (fun _ _ _ _ he hs => he.bankingEnabled.trans hs) (fun _ _ _ hs => hs) (fun _ _ _ _ _ _ => trivial) h rfl

/-- While the latch is clear BANK_WRITE is a no-op (R101). -/
theorem bankWrite_disabled {s : State} (h : s.bankingEnabled = false) (v : Byte) : bankWrite s v = s := by
  obtain ⟨-, hw⟩ | ⟨hopen, -⟩ := bankWrite_cases s v
  · exact hw
  · cases h.symm.trans hopen

theorem portOut_disabled {s : State} (h : s.bankingEnabled = false) (port : Word) (v : Byte) :
    portOut s port v = s := by
  rw [portOut, bankWrite_disabled h, ite_self]

@[simp] theorem tickedFor_bankingEnabled (s : State) (index : Nat) :
    (tickedFor s index).bankingEnabled = s.bankingEnabled := by
  rw [tickedFor_frame]

/-- A call leaves a clear latch clear, or is a RESET or POWER_ON of the banked variant. -/
theorem CallEffect.latch {s t : State} {i : Instr} (h : CallEffect s i t) (hs : s.bankingEnabled = false) :
    t.bankingEnabled = false ∨ i = .reset .banked ∨ i = .powerOn .banked := by
  cases h with
  | stores r h => rw [h.eq]; exact .inl hs
  | remaps r hb => exact .inl hs
  | fetches r h => exact .inl ((dispatchTraps_bankingEnabled h).trans hs)
  | banks v => rw [bankWrite_disabled hs]; exact .inl hs
  | portOuts port v => rw [portOut_disabled hs]; exact .inl hs
  | resets w =>
    cases w with
    | simple => exact .inl rfl
    | banked => exact .inr (.inl rfl)
  | powersOn w =>
    cases w with
    | simple => exact .inl rfl
    | banked => exact .inr (.inr rfl)
  | renders index r => exact .inl ((tickedFor_bankingEnabled s index).trans hs)
  | outside h => rw [h]; exact .inl hs

/-- Settles O21: of a call's effects only the resets of the banked variant do not keep a clear latch (`CallEffect.latch`). -/
theorem onlyBankedResetSetsTheLatch : Obligations.OnlyBankedResetSetsTheLatch := by
  intro s t i h hs ht
  obtain hclear | hreset := (exec_effect h).latch hs
  · cases hclear.symm.trans ht
  · exact hreset

/-! ### BANK_WRITE in numbers (R101) -/

theorem bankVid_eq_decide (v : Byte) : bankVid v = decide (v.toNat / 8 % 2 = 1) := by
  rw [Bool.eq_iff_iff, decide_eq_true_iff]
  exact true_iff_of_toNat (bankVid_toNat v)

/-- The latch stays set exactly when the lock bit is 0. -/
theorem not_bankLock_eq_decide (v : Byte) : (!bankLock v) = decide (v.toNat / 32 % 2 = 0) := by
  rw [← bankLock_toNat]
  cases bankLock v <;> rfl

/-- Bit 4 of the banking byte selects the alternate ROM. -/
theorem romOfBit_bankRom (c : Config) (v : Byte) :
    romOfBit c (bankRom v) = if v.toNat / 16 % 2 = 0 then romAlt0 c else romAlt1 c := by
  rw [← bankRom_toNat]
  cases bankRom v <;> rfl

theorem exec_bankWrite {s : State} (hboot : s.booted = true) (v : Byte) :
    exec (.bankWrite v) s = .next ((bankWrite s v).returning .unit) := whenBooted_of hboot _

/-- Settles O19: the alternate ROMs by the order of the parameter, and BANK_WRITE by its two cases, its fields in numbers. -/
theorem bankWriteMapsAndLocks : Obligations.BankWriteMapsAndLocks := by
  refine ⟨fun c => ⟨fun h => ?_, fun h => ?_⟩, fun s v hboot => ⟨fun hopen => ?_, fun hclear => ?_⟩⟩
  · simp [romAlt0, romAlt1, h]
  · simp [romAlt0, romAlt1, h]
  · obtain ⟨hclear, -⟩ | ⟨-, hw⟩ := bankWrite_cases s v
    · cases hclear.symm.trans hopen
    · rw [exec_bankWrite hboot, hw, bankRam_toNat, romOfBit_bankRom, bankVid_eq_decide, not_bankLock_eq_decide]
      rfl
  · rw [exec_bankWrite hboot, bankWrite_disabled hclear]
    rfl

end Sys2Proof.Machine
end

section
/-! PROOFS of the family 42_cpu_bus_and_traps.md: the CPU bus (O22, O29, O30, O31), matching and the scan of the trap table
(O28, O24), the plain fetch (O23, O26), a fetch's completion (O25) and refusal (O27), the reverse channel (O32) and what a
handler's actions and programs do (O60). The scan, the fetch and a list of actions are sequences of outcomes: each is said
once through `followedBy`, and the proofs compute with its laws. -/

namespace Sys2Proof.Machine

/-! ### Outcomes in sequence -/

section
variable {o : Host.Outcome State Fault Refusal} {f g : State → Host.Outcome State Fault Refusal}

@[simp] theorem followedBy_next (t : State) : followedBy (.next t) f = f t := rfl

@[simp] theorem followedBy_refused (r : Refusal) : followedBy (.refused r) f = .refused r := rfl

theorem followedBy_assoc : followedBy (followedBy o f) g = followedBy o fun t => followedBy (f t) g := by
  cases o <;> rfl

/-- A sequence completes exactly when both of its parts do. -/
theorem followedBy_next_iff {u : State} : followedBy o f = .next u ↔ ∃ t, o = .next t ∧ f t = .next u := by
  cases o <;> simp [followedBy]

/-- What comes second matters only in the state the first part leaves. -/
theorem followedBy_congr (h : ∀ t, o = .next t → f t = g t) : followedBy o f = followedBy o g := by
  cases o with
  | next t => exact h t rfl
  | fault r => rfl
  | refused r => rfl

end

theorem runActions_cons (s : State) (a : HandlerAction) (as : List HandlerAction) :
    runActions s (a :: as) = followedBy (runAction s a) fun t => runActions t as := rfl

theorem runActions_singleton (s : State) (a : HandlerAction) : runActions s [a] = runAction s a := by
  rw [runActions_cons]
  cases runAction s a <;> rfl

theorem runActions_append_eq (s : State) (as bs : List HandlerAction) :
    runActions s (as ++ bs) = followedBy (runActions s as) fun t => runActions t bs := by
  induction as generalizing s with
  | nil => rfl
  | cons a as ih => simp only [List.cons_append, runActions_cons, followedBy_assoc, ih]

section
variable {s : State} {addr : Va} {e : TrapEntry}

theorem dispatchTraps_cons_of_match (hm : trapMatches s e addr = true) (es : List TrapEntry) :
    dispatchTraps s addr (e :: es) = followedBy (runHandler s e.handler) fun t => dispatchTraps t addr es :=
  if_pos hm

theorem dispatchTraps_cons_of_miss (hm : trapMatches s e addr = false) (es : List TrapEntry) :
    dispatchTraps s addr (e :: es) = dispatchTraps s addr es :=
  if_neg (by simp [hm])

end

theorem fetchOpcode_eq (s : State) (addr : Va) :
    fetchOpcode s addr = followedBy (dispatchTraps s addr s.cfg.trapTable) fun t => answerByte t addr := rfl

theorem exec_fetchOpcode {s : State} (hboot : s.booted = true) (addr : Va) :
    exec (.fetchOpcode addr) s = fetchOpcode s addr := whenBooted_of hboot _

theorem exec_cpuRead_eq {s : State} (hboot : s.booted = true) (addr : Va) :
    exec (.cpuRead addr) s = answerByte s addr := whenBooted_of hboot _

/-! ### The CPU bus without traps (R115 to R118) -/

/-- Settles O29: CPU_READ is READ_BYTE, which consults no trap table. -/
theorem cpuReadRunsNoHandler : Obligations.CpuReadRunsNoHandler :=
  fun _ _ hboot hb => exec_readByte_ok hboot hb

/-- Settles O30: CPU_WRITE is WRITE_BYTE, and that is the byte write `writeByte_reads` describes. -/
theorem cpuWriteIsWriteByte : Obligations.CpuWriteIsWriteByte := by
  intro s addr v hboot hb
  obtain ⟨t, ht, hreads⟩ := writeByte_reads hb v
  have hx : exec (.writeByte addr v) s = .next (t.returning .unit) := by
    rw [exec, execWriteByte, whenBooted_of hboot, ht, answerState_ok]
  refine ⟨t.returning .unit, hx, hx, ?_, hreads⟩
  rw [(writeByte_storesOnly ht).eq]
  rfl

/-- Settles O31: the byte is the environment's free value. -/
theorem portInChangesNoState : Obligations.PortInChangesNoState :=
  fun s port hboot => ⟨Config.portInOracle s.draws port s.host, whenBooted_of hboot _⟩

theorem portOut_of_bankPort {s : State} {port : Word} (h : port ∈ s.cfg.bankPorts) (v : Byte) :
    portOut s port v = bankWrite s v := if_pos (List.contains_iff_mem.mpr h)

theorem portOut_of_otherPort {s : State} {port : Word} (h : port ∉ s.cfg.bankPorts) (v : Byte) :
    portOut s port v = s := if_neg fun hc => h (List.contains_iff_mem.mp hc)

theorem exec_portOut {s : State} (hboot : s.booted = true) (port : Word) (v : Byte) :
    exec (.portOut port v) s = .next ((portOut s port v).returning .unit) := whenBooted_of hboot _

/-- Settles O22: the two kinds of port. -/
theorem portOutReachesOnlyTheBankingPort : Obligations.PortOutReachesOnlyTheBankingPort := by
  intro s port v hboot
  refine ⟨fun h => ⟨_, ?_, exec_bankWrite hboot v⟩, fun h => ?_⟩
  · rw [exec_portOut hboot, portOut_of_bankPort h]
  · rw [exec_portOut hboot, portOut_of_otherPort h]
    rfl

/-! ### Matching (R112) -/

theorem trapMatches_unfiltered {s : State} (h : s.cfg.trapFilterByRom = false) (e : TrapEntry) (addr : Va) :
    trapMatches s e addr = true ↔ e.address = addr := by
  simp [trapMatches, h]

theorem trapMatches_filtered {s : State} (h : s.cfg.trapFilterByRom = true) (e : TrapEntry) (addr : Va) :
    trapMatches s e addr = true ↔ e.address = addr ∧ s.slots.s0.bank = e.owningRomBank := by
  simp [trapMatches, h]

/-- An entry at another address never matches. -/
theorem trapMatches_of_ne {e : TrapEntry} {addr : Va} (h : e.address ≠ addr) (s : State) :
    trapMatches s e addr = false :=
  Bool.eq_false_iff.mpr fun hm => h (trapMatches_address hm)

/-- Settles O28: the filter parameter decides which of the two forms matching has. -/
theorem trapMatchIsExactAddressAndOptionalRom : Obligations.TrapMatchIsExactAddressAndOptionalRom :=
  fun _ e addr => ⟨fun h => trapMatches_unfiltered h e addr, fun h => trapMatches_filtered h e addr⟩

/-! ### What a dispatch leaves unchanged (R113) -/

/-- From `s` to `t` at most the items a trap handler can reach have changed. -/
def HandlerFrame (s t : State) : Prop :=
  t = { s with
    pool := t.pool, slots := t.slots, cpu := t.cpu, host := t.host, draws := t.draws, result := t.result }

theorem HandlerFrame.booted {s t : State} (h : HandlerFrame s t) : t.booted = s.booted := by rw [h]

theorem ActionEffect.handlerFrame {s t u : State} {a : HandlerAction} (h : ActionEffect t a u)
    (hs : HandlerFrame s t) : HandlerFrame s u := by
  rw [hs] at h
  cases h with
  | stores r h => rw [h.eq]; rfl
  | remaps r hb => rfl
  | resumes x => rfl
  | setsRegs regs => rfl
  | setsHost host => rfl

theorem dispatchTraps_frame {s t : State} {addr : Va} {es : List TrapEntry} (h : dispatchTraps s addr es = .next t) :
    HandlerFrame s t :=
  dispatchTraps_keeps (P := HandlerFrame s) (ok := fun _ => True) (fun _ _ _ _ he hs => he.handlerFrame hs)
    (fun _ _ _ hs => by rw [hs]; rfl) (fun _ _ _ _ _ _ => trivial) h rfl

/-! ### The scan of the table (R111) -/

/-- The scan completes exactly along the runs that `Dispatched` tells. -/
theorem dispatchTraps_next_iff {s t : State} {addr : Va} {es : List TrapEntry} :
    dispatchTraps s addr es = .next t ↔ Dispatched addr s es t := by
  constructor
  · intro h
    induction es generalizing s with
    | nil => cases h; exact .done _
    | cons e es ih =>
      cases hm : trapMatches s e addr with
      | true =>
        rw [dispatchTraps_cons_of_match hm, followedBy_next_iff] at h
        obtain ⟨u, hu, hrest⟩ := h
        exact .fires hm hu (ih hrest)
      | false =>
        rw [dispatchTraps_cons_of_miss hm] at h
        exact .passes hm (ih h)
  · intro h
    induction h with
    | done s => rfl
    | fires hm hr rest ih => rw [dispatchTraps_cons_of_match hm, runHandler, hr, followedBy_next, ih]
    | passes hm rest ih => rw [dispatchTraps_cons_of_miss hm, ih]

theorem scriptsAt_cons_of_script {addr : Va} {e : TrapEntry} {actions : List HandlerAction} (ha : e.address = addr)
    (hs : e.handler = .script actions) (es : List TrapEntry) :
    scriptsAt addr (e :: es) = actions ++ scriptsAt addr es := by
  simp [scriptsAt, ha, hs]

theorem scriptsAt_cons_of_ne {addr : Va} {e : TrapEntry} (ha : e.address ≠ addr) (es : List TrapEntry) :
    scriptsAt addr (e :: es) = scriptsAt addr es := by
  cases hh : e.handler <;> simp [scriptsAt, hh, ha]

/-- With unfiltered matching and scripts the scan is one list of actions; no handler can switch the filter on. -/
theorem dispatchTraps_eq_scriptsAt {s : State} {addr : Va} {es : List TrapEntry}
    (hf : s.cfg.trapFilterByRom = false)
    (hs : ∀ e ∈ es, e.address = addr → ∃ actions, e.handler = .script actions) :
    dispatchTraps s addr es = runActions s (scriptsAt addr es) := by
  induction es generalizing s with
  | nil => rfl
  | cons e es ih =>
    have hrest : ∀ e ∈ es, e.address = addr → ∃ actions, e.handler = .script actions := fun e he => hs e (by simp [he])
    by_cases ha : e.address = addr
    · obtain ⟨actions, hscript⟩ := hs e (by simp) ha
      rw [dispatchTraps_cons_of_match ((trapMatches_unfiltered hf e addr).mpr ha), scriptsAt_cons_of_script ha hscript,
        runActions_append_eq, hscript]
      refine followedBy_congr fun t ht => ih ?_ hrest
      rw [runHandler_cfg ht, hf]
    · rw [dispatchTraps_cons_of_miss (trapMatches_of_ne ha s), scriptsAt_cons_of_ne ha, ih hf hrest]

/-- Settles O24: a fetch is the scan and then the read, and a handler cannot undo the power-on the read asks for. -/
theorem fetchRunsMatchingHandlersInTableOrder : Obligations.FetchRunsMatchingHandlersInTableOrder := by
  refine ⟨fun s u addr hboot => ?_, fun s t addr hboot hf hs hrun => ?_⟩
  · rw [exec_fetchOpcode hboot, fetchOpcode_eq, followedBy_next_iff]
    refine exists_congr fun t => ?_
    rw [← dispatchTraps_next_iff]
    refine and_congr_right fun ht => ?_
    rw [exec_cpuRead_eq ((dispatchTraps_frame ht).booted.trans hboot)]
  · have ht : dispatchTraps s addr s.cfg.trapTable = .next t := (dispatchTraps_eq_scriptsAt hf hs).trans hrun
    rw [exec_fetchOpcode hboot, fetchOpcode_eq, ht, followedBy_next,
      exec_cpuRead_eq ((dispatchTraps_frame ht).booted.trans hboot)]

/-! ### The plain fetch (R111, R114) -/

/-- Entries that miss, and handlers without an action, leave the state as it is. -/
theorem dispatchTraps_of_emptyScripts {s : State} {addr : Va} {es : List TrapEntry}
    (h : ∀ e ∈ es, e.address = addr → e.handler = .script []) : dispatchTraps s addr es = .next s := by
  induction es with
  | nil => rfl
  | cons e es ih =>
    have hrest := ih fun e he => h e (by simp [he])
    cases hm : trapMatches s e addr with
    | true =>
      rw [dispatchTraps_cons_of_match hm, h e (by simp) (trapMatches_address hm)]
      exact hrest
    | false => rw [dispatchTraps_cons_of_miss hm, hrest]

theorem exec_fetchOpcode_of_emptyScripts {s : State} {addr : Va} (hboot : s.booted = true)
    (hb : (s.slotOf addr).bank < s.cfg.numBanks)
    (h : ∀ e ∈ s.cfg.trapTable, e.address = addr → e.handler = .script []) :
    exec (.fetchOpcode addr) s = .next (s.returning (.byte (Memory.read s.pool (s.physOf addr)))) := by
  rw [exec_fetchOpcode hboot, fetchOpcode_eq, dispatchTraps_of_emptyScripts h, followedBy_next, answerByte_ok hb]

/-- Settles O23: with no entry at the address, every entry there is an empty script. -/
theorem fetchWithoutTrapIsAPlainRead : Obligations.FetchWithoutTrapIsAPlainRead :=
  fun _ _ hboot hb hmiss => exec_fetchOpcode_of_emptyScripts hboot hb fun e he ha => absurd ha (hmiss e he)

/-- Settles O26: empty scripts leave the state alone; in general the byte is read where the handlers' state maps the address,
which is where it was. -/
theorem trapsAreTransparent : Obligations.TrapsAreTransparent := by
  refine ⟨fun s addr hboot hb h => exec_fetchOpcode_of_emptyScripts hboot hb h, fun s t addr h hslot hbyte => ?_⟩
  obtain ⟨u, -, -, rfl⟩ := fetchOpcode_next (whenBooted_next h).2
  have hphys : u.physOf addr = s.physOf addr := by
    rw [physOf_eq, physOf_eq, show u.slotOf addr = s.slotOf addr from hslot]
  rw [State.returning_result, hphys]
  exact congrArg Result.byte hbyte

/-! ### A fetch completes, or is refused (R113, R172) -/

/-- Settles O25: permitted handlers complete, and a completed fetch is a dispatch and a read. -/
theorem fetchCompletesWithPermittedHandlers : Obligations.FetchCompletesWithPermittedHandlers := by
  intro s addr hboot hbanks hsafe
  obtain ⟨t, ht⟩ := fetchOpcode_total hbanks hsafe
  obtain ⟨u, hu, -, rfl⟩ := fetchOpcode_next ht
  refine ⟨_, (exec_fetchOpcode hboot addr).trans ht, rfl, ?_⟩
  rw [dispatchTraps_frame hu]
  rfl

theorem handlerCall_forbidden {i : Instr} (h : handlerMayCall i = false) (s : State) :
    handlerCall s i = .refused .handlerCall := by
  cases i
  case translate | readByte | writeByte | readWord | writeWord | remap | resumeAt | createHeaderBlock | writeBlock =>
    cases h
  all_goals rfl

/-- A refused action stops the handler's run, whatever ran before it. -/
theorem runHandler_refused {t u : State} {hd : Handler} {a : HandlerAction} {r : Refusal}
    {before more : List HandlerAction} (hacts : handlerActions t hd = before ++ a :: more)
    (hbefore : runActions (handlerStart t hd) before = .next u) (ha : runAction u a = .refused r) :
    runHandler t hd = .refused r := by
  rw [runHandler, hacts, runActions_append hbefore, runActions_cons, ha, followedBy_refused]

/-- A refused run of an entry's handler stops the fetch, wherever the entry stands in the table. -/
theorem exec_fetchOpcode_refused {s t : State} {addr : Va} {pre es : List TrapEntry} {e : TrapEntry} {r : Refusal}
    (hboot : s.booted = true) (htable : s.cfg.trapTable = pre ++ e :: es)
    (hpre : dispatchTraps s addr pre = .next t) (hm : trapMatches t e addr = true)
    (hrun : runHandler t e.handler = .refused r) : exec (.fetchOpcode addr) s = .refused r := by
  rw [exec_fetchOpcode hboot, fetchOpcode_eq, htable, dispatchTraps_append hpre, dispatchTraps_cons_of_match hm, hrun,
    followedBy_refused, followedBy_refused]

/-- Settles O27: a refused action, be it a forbidden call or one out of its domain, stops the handler and the fetch. -/
theorem forbiddenHandlerCallIsRefused : Obligations.ForbiddenHandlerCallIsRefused :=
  ⟨fun _ _ u _ _ _ _ _ _ _ hboot hcall htable hpre hm hacts hbefore =>
    exec_fetchOpcode_refused hboot htable hpre hm (runHandler_refused hacts hbefore (handlerCall_forbidden hcall u)),
   fun _ _ _ _ _ _ _ _ _ _ _ hboot ha htable hpre hm hacts hbefore =>
    exec_fetchOpcode_refused hboot htable hpre hm (runHandler_refused hacts hbefore ha),
   fun _ => rfl⟩

/-! ### The reverse channel (R119) -/

/-- Only RESUME_AT assigns the next-fetch address. -/
theorem ActionEffect.pc {s t : State} {a : HandlerAction} (h : ActionEffect s a t) (ha : actionIsResume a = false) :
    t.cpu.pc = s.cpu.pc := by
  cases h with
  | stores r h => rw [h.eq]; rfl
  | remaps r hb => rfl
  | resumes x => cases ha
  | setsRegs regs => rfl
  | setsHost host => rfl

theorem runActions_pc {s t : State} {as : List HandlerAction} (hall : ∀ a ∈ as, actionIsResume a = false)
    (h : runActions s as = .next t) : t.cpu.pc = s.cpu.pc :=
  runActions_keeps (P := fun u => u.cpu.pc = s.cpu.pc) (ok := fun a => actionIsResume a = false)
    (fun _ _ _ ha he hs => (he.pc ha).trans hs) hall h rfl

theorem dispatchTraps_pc {s t : State} {addr : Va} {es : List TrapEntry}
    (hall : ∀ e ∈ es, e.address = addr → HandlerNeverResumes e.handler) (h : dispatchTraps s addr es = .next t) :
    t.cpu.pc = s.cpu.pc :=
  dispatchTraps_keeps (P := fun u => u.cpu.pc = s.cpu.pc) (ok := fun a => actionIsResume a = false)
    (fun _ _ _ ha he hs => (he.pc ha).trans hs) (fun _ _ _ hs => hs) hall h rfl

/-- A handler's run leaves the address its last RESUME_AT gave. -/
theorem runHandler_pc_of_lastResume {s t : State} {hd : Handler} {y : Va} {before more : List HandlerAction}
    (hacts : handlerActions s hd = before ++ .call (.resumeAt y) :: more)
    (hmore : ∀ a ∈ more, actionIsResume a = false) (h : runHandler s hd = .next t) : t.cpu.pc = y := by
  rw [runHandler, hacts, runActions_append_eq, followedBy_next_iff] at h
  obtain ⟨u, -, hu⟩ := h
  exact runActions_pc (s := (resumeAt u y).returning .unit) hmore hu

/-- A handler that only redirects. -/
theorem runHandler_resumeAt (s : State) (x : Va) :
    runHandler s (.script [.call (.resumeAt x)]) = .next ((resumeAt s x).returning .unit) := rfl

/-- Settles O32: the assignment; the last one of a fetch, which nothing after it undoes; and two lone redirects run in turn,
neither of which moves the byte at the fetch's own address. -/
theorem resumeAtAssignsTheNextFetchAddress : Obligations.ResumeAtAssignsTheNextFetchAddress := by
  refine ⟨fun s x hboot => whenBooted_of hboot _, ?_, ?_⟩
  · intro s t w addr y before more pre es e htable hpre hm hacts hmore hlater h
    obtain ⟨u, hu, -, rfl⟩ := fetchOpcode_next (whenBooted_next h).2
    rw [htable, dispatchTraps_append hpre, dispatchTraps_cons_of_match hm, followedBy_next_iff] at hu
    obtain ⟨v, hv, hrest⟩ := hu
    exact (dispatchTraps_pc hlater hrest).trans (runHandler_pc_of_lastResume hacts hmore hv)
  · intro s addr x y d e hboot hb htable hd he hmd hme
    have hme' : trapMatches ((resumeAt s x).returning .unit) e addr = true := hme
    rw [exec_fetchOpcode hboot, fetchOpcode_eq, htable, dispatchTraps_cons_of_match hmd, hd, runHandler_resumeAt,
      followedBy_next, dispatchTraps_cons_of_match hme', he, runHandler_resumeAt]
    exact answerByte_ok (s := (resumeAt ((resumeAt s x).returning .unit) y).returning .unit) hb

/-! ### A handler's actions and programs (R113, R120) -/

theorem runAction_call_eq_exec {s : State} {i : Instr} (hboot : s.booted = true) (hm : handlerMayCall i = true) :
    runAction s (.call i) = exec i s := by
  rw [exec_of_handlerMayCall hm, whenBooted_of hboot]
  rfl

theorem runCode_call_ok {s : State} {c : HandlerCall} {i : Instr} (h : evalCall s c = .ok i) :
    runCode (.call c) s = runAction s (.call i) := by
  rw [runCode, codeActions, h, actionOf_ok, runActions_singleton]

theorem runCode_call_error {s : State} {c : HandlerCall} {e : DecodeError} (h : evalCall s c = .error e) :
    runCode (.call c) s = .refused .operandOutOfRange := by
  rw [runCode, codeActions, h, actionOf_error, runActions_singleton]
  rfl

/-- A call of two computed operands is made when both fit their widths. -/
theorem evalBits_pair {m n : Nat} (s : State) (a b : HandlerValue) (call : BitVec m → BitVec n → Instr) :
    (do return call (← evalBits m s a) (← evalBits n s b)) =
      if evalValue s a < 2 ^ m ∧ evalValue s b < 2 ^ n then
        Except.ok (call (BitVec.ofNat m (evalValue s a)) (BitVec.ofNat n (evalValue s b)))
      else .error .operandTooWide := by
  by_cases ha : evalValue s a < 2 ^ m
  · by_cases hb : evalValue s b < 2 ^ n
    · rw [evalBits_fits ha, evalBits_fits hb, if_pos ⟨ha, hb⟩]
      rfl
    · rw [evalBits_fits ha, evalBits_tooWide hb, if_neg fun h => hb h.2]
      rfl
  · rw [evalBits_tooWide ha, if_neg fun h => ha h.1]
    rfl

/-- A byte a program stores outside the block is stored when it fits a byte. -/
theorem runActions_storeByte (s : State) (v : HandlerValue) (store : Byte → HandlerAction) :
    runActions s [actionOf (evalBits 8 s v) store] =
      if evalValue s v < 256 then runAction s (store (BitVec.ofNat 8 (evalValue s v)))
      else .refused .operandOutOfRange := by
  rw [runActions_singleton]
  by_cases hv : evalValue s v < 256
  · rw [evalBits_fits hv, actionOf_ok, if_pos hv]
  · rw [evalBits_tooWide hv, actionOf_error, if_neg hv]
    rfl

theorem runCode_seq (s : State) (p q : HandlerCode) :
    runCode (.seq p q) s = followedBy (runCode p s) (runCode q) := runActions_thenActions s _ _

theorem runCode_ifElse (s : State) (v : HandlerValue) (p q : HandlerCode) :
    runCode (.ifElse v p q) s = if evalValue s v = 0 then runCode q s else runCode p s :=
  apply_ite (runActions s) _ _ _

theorem runCode_times_zero {s : State} {v : HandlerValue} (h : evalValue s v = 0) (p : HandlerCode) :
    runCode (.times v p) s = .next s := by
  rw [runCode, codeActions, h]
  rfl

theorem runCode_times_succ {s : State} {v : HandlerValue} {n : Nat} (h : evalValue s v = n + 1) (p : HandlerCode) :
    runCode (.times v p) s = followedBy (runCode p s) (runCode (.times (.lit n) p)) := by
  rw [runCode, codeActions, h]
  exact runActions_thenActions s _ _

/-! ### The handler of V-T2 -/

/-- The byte V-T2's handler stores: the answered byte plus 1, as a byte. -/
theorem evalBits_answerPlusOne {s : State} {b : Byte} (h : s.result = .byte b) :
    evalBits 8 s (.mod (.add (.answer 0) (.lit 1)) (.lit 256)) = .ok (b + 1#8) := by
  have hval : evalValue s (.mod (.add (.answer 0) (.lit 1)) (.lit 256)) = (b + 1#8).toNat := by
    simp [evalValue, h, resultNumber]
  rw [evalBits_fits (hval ▸ (b + 1#8).isLt), hval, BitVec.ofNat_toNat, BitVec.setWidth_eq]

theorem evalBits_address (s : State) (va : Va) : evalBits 16 s (.lit va.toNat) = .ok va := by
  rw [evalBits_fits va.isLt, evalValue, BitVec.ofNat_toNat, BitVec.setWidth_eq]

/-- The program reads the byte, then stores what it read plus 1. -/
theorem runCode_incrementAt {s : State} {va : Va} (hb : (s.slotOf va).bank < s.cfg.numBanks)
    (hp : (s.slotOf va).policy = .readWrite) :
    runCode (incrementAt va) s =
      .next ((s.withPool (Memory.write s.pool (s.physOf va) (Memory.read s.pool (s.physOf va) + 1#8))).returning
        .unit) := by
  have hread : evalCall s (.readByte (.lit va.toNat)) = .ok (.readByte va) := by
    rw [evalCall, evalBits_address]
    rfl
  have hwrite : ∀ b : Byte, evalCall (s.returning (.byte b))
      (.writeByte (.lit va.toNat) (.mod (.add (.answer 0) (.lit 1)) (.lit 256))) = .ok (.writeByte va (b + 1#8)) := by
    intro b
    rw [evalCall, evalBits_address, evalBits_answerPlusOne (State.returning_result s _)]
    rfl
  have hstore : ∀ b v : Byte, handlerCall (s.returning (.byte b)) (.writeByte va v) =
      .next ((s.withPool (Memory.write s.pool (s.physOf va) v)).returning .unit) := by
    intro b v
    rw [handlerCall, writeByte_readWrite (s := s.returning (.byte b)) hp hb]
    rfl
  rw [incrementAt, runCode_seq, runCode_call_ok hread, runAction, handlerCall, answerByte_ok hb, followedBy_next,
    runCode_call_ok (hwrite _), runAction, hstore]

/-- Settles O60: each kind of action and each part of a program by its rule above; the three stores are one rule. -/
theorem handlerActionsHaveTheirEffect : Obligations.HandlerActionsHaveTheirEffect := by
  refine ⟨fun s i => runAction_call_eq_exec, fun s regs => rfl, fun s host => rfl, fun s => rfl, ?_,
    fun s code => rfl, fun s => rfl, runActions_singleton, fun s c i => runCode_call_ok,
    fun s c e => runCode_call_error, fun s va v => evalBits_pair s va v .writeByte,
    fun s va w => evalBits_pair s va w .writeWord, fun s i b p => rfl,
    fun s k v => runActions_storeByte s v _, fun s k v => runActions_storeByte s v _,
    fun s v => runActions_storeByte s v _, runCode_seq, runCode_ifElse, fun s v p h => runCode_times_zero h p,
    fun s v p n h => runCode_times_succ h p, ?_⟩
  · intro s t a more h
    rw [runActions_cons, h, followedBy_next]
  · intro s va hb hp
    refine ⟨_, runCode_incrementAt (s := s.drawn.returning .unit) hb hp, rfl, fun a => ?_⟩
    refine (Memory.read_write s.pool (s.physOf va) (Memory.read s.pool (s.physOf va) + 1#8) a).trans ?_
    by_cases ha : a = s.physOf va
    · rw [if_pos ha, if_pos ha, ha]
    · rw [if_neg ha, if_neg ha]

end Sys2Proof.Machine
end

section
/-! PROOFS of the family 43_display.md: the pixel area's layout (O33, O34), colours (O35), RENDER_SCANLINE's guards (O40, O41),
its border rows (O36) and active rows (O37, O43), the frame tick and the flash period (O38, O39), SET_BORDER (O44). A row is a
concatenation of columns, and a column of pixels, each of one length: one lemma on such lists (`getElem?_flatMap_range`) finds
an entry in both. The flash period is one invariant, `CountsFrames`, that every call keeps for the count it leaves. -/

namespace Sys2Proof.Machine

/-! ### The pixel area (R130, R131) -/

/-- Settles O33: the answer on each side of the bound. -/
theorem lineOffsetFollowsTheFormula : Obligations.LineOffsetFollowsTheFormula :=
  fun _ _ => ⟨fun hy => if_pos hy, fun hy => if_neg (Nat.not_lt.mpr hy)⟩

/-- The active line a byte of the pixel area belongs to: above the column's five bits an offset holds the line number's fields
in the order segment, line, cell (30_encoding.md R65). -/
def lineOfOffset (o : Nat) : Nat := o / 32 / 8 / 8 * 64 + o / 32 % 8 * 8 + o / 32 / 8 % 8

section
variable {segment cell line column : Nat}

theorem lineOffset_of_fields (hcell : cell < 8) (hline : line < 8) :
    lineOffset (segment * 64 + cell * 8 + line) = segment * 2048 + cell * 32 + line * 256 := by
  have hsegment : (segment * 64 + cell * 8 + line) / 64 = segment := by omega
  have hrest : (segment * 64 + cell * 8 + line) % 64 = cell * 8 + line := by omega
  rw [lineOffset, lineSegment, lineCell, lineLine, hsegment, hrest]
  omega

theorem lineOfOffset_of_fields (hcell : cell < 8) (hline : line < 8) (hcolumn : column < 32) :
    lineOfOffset (segment * 2048 + cell * 32 + line * 256 + column) = segment * 64 + cell * 8 + line := by
  have habove : (segment * 2048 + cell * 32 + line * 256 + column) / 32 = (segment * 8 + line) * 8 + cell := by omega
  have hupper : ((segment * 8 + line) * 8 + cell) / 8 = segment * 8 + line := by omega
  rw [lineOfOffset, habove, hupper]
  omega

end

theorem lineOfOffset_lt {o : Nat} (ho : o < 6144) : lineOfOffset o < 192 := by
  simp only [lineOfOffset]
  omega

/-- Each offset is that of its line and of its column, its place among the 32 bytes. -/
theorem lineOffset_lineOfOffset (o : Nat) : lineOffset (lineOfOffset o) + o % 32 = o := by
  rw [lineOfOffset, lineOffset_of_fields (Nat.mod_lt _ (by decide)) (Nat.mod_lt _ (by decide))]
  omega

/-- The line of an offset is the one it was made from. -/
theorem lineOfOffset_lineOffset {c : Nat} (hc : c < 32) (y : Nat) : lineOfOffset (lineOffset y + c) = y := by
  have hcell : lineCell y < 8 := Nat.div_lt_of_lt_mul (Nat.mod_lt y (by decide))
  have hline : lineLine y < 8 := Nat.mod_lt _ (by decide)
  rw [lineOffset, lineOfOffset_of_fields hcell hline hc, lineSegment, lineCell, lineLine]
  omega

/-- Settles O34: an offset has its own line and column, and equal offsets have equal lines, hence equal columns. -/
theorem linesTileThePixelArea : Obligations.LinesTileThePixelArea := by
  refine ⟨fun o ho => ⟨lineOfOffset o, o % 32, lineOfOffset_lt ho, Nat.mod_lt o (by decide),
    lineOffset_lineOfOffset o⟩, ?_⟩
  intro y c z d _ hc _ hd h
  have hline : y = z := by rw [← lineOfOffset_lineOffset hc y, h, lineOfOffset_lineOffset hd]
  subst hline
  exact ⟨rfl, Nat.add_left_cancel h⟩

/-- The pixel bytes of the active lines lie in the bank. -/
theorem pixelOffset_lt {y c : Nat} (hy : y < 192) (hc : c < 32) : lineOffset y + c < 16384 := by
  simp only [lineOffset, lineSegment, lineCell, lineLine]
  omega

/-- So do the bytes their colours are decoded from (R133), under admissible parameters. -/
theorem attrOffset_lt {cfg : Config} (hok : cfg.Ok) {y c : Nat} (hy : y < 192) (hc : c < 32) :
    attrOffset cfg y c < 16384 := by
  obtain ⟨-, -, -, -, -, -, -, hbase, -⟩ := hok
  simp only [attrOffset]
  omega

/-! ### Colours (R134) -/

theorem paletteIndex_toNat (bright : Bool) (colour : BitVec 3) :
    (paletteIndex bright colour).toNat = colour.toNat + 8 * bright.toNat := by
  rw [paletteIndex_eq_append, append_toNat, BitVec.toNat_ofBool]
  omega

/-- The answer of ATTR_DECODE is the pair of colours. -/
theorem exec_attrDecode (a : Byte) (flash : Bool) (s : State) :
    exec (.attrDecode a flash) s = .next (s.returning (.colours (attrDecode a flash).1 (attrDecode a flash).2)) := rfl

/-- Settles O35: the two colours in numbers, and the exchange on both values of its condition. -/
theorem attrDecodeFollowsTheRule : Obligations.AttrDecodeFollowsTheRule := by
  intro s a f
  refine ⟨paletteIndex (attrBright a) (attrInk a), paletteIndex (attrBright a) (attrPaper a), ?_, ?_, ?_⟩
  · rw [paletteIndex_toNat, attrInk_toNat, attrBright_toNat]
  · rw [paletteIndex_toNat, attrPaper_toNat, attrBright_toNat]
  · have hflash : (attrFlash a && f) = true ↔ a.toNat / 128 % 2 = 1 ∧ f = true := by
      rw [Bool.and_eq_true, true_iff_of_toNat (attrFlash_toNat a)]
    rw [exec_attrDecode, attrDecode]
    by_cases h : a.toNat / 128 % 2 = 1 ∧ f = true
    · rw [if_pos h, if_pos (hflash.mpr h)]
      rfl
    · rw [if_neg h, if_neg (mt hflash.mp h)]
      rfl

/-! ### RENDER_SCANLINE: range, power and border rows (R136, R137, R138, R140) -/

theorem exec_renderScanline {s : State} (hboot : s.booted = true) (index : Nat) :
    exec (.renderScanline index) s = renderScanline s index := whenBooted_of hboot _

/-- Settles O40: no row while not powered. -/
theorem unpoweredRenderEmitsNothing : Obligations.UnpoweredRenderEmitsNothing := by
  intro s index hboot hp hi
  rw [exec_renderScanline hboot, renderScanline_unpowered hi hp, State.returning_eq]

/-- Settles O41: the range is checked before the power bit. -/
theorem renderOutOfRangeIsRefused : Obligations.RenderOutOfRangeIsRefused := by
  intro s index hboot hi
  rw [exec_renderScanline hboot, renderScanline, if_neg (Nat.not_lt.mpr hi)]

/-- The two border bands (R136). -/
theorem isBorderRow_iff {c : Config} {index : Nat} :
    isBorderRow c index = true ↔ index < c.topBorder ∨ c.topBorder + 192 ≤ index := by
  simp [isBorderRow]

theorem isBorderRow_false_iff {c : Config} {index : Nat} :
    isBorderRow c index = false ↔ c.topBorder ≤ index ∧ index < c.topBorder + 192 := by
  rw [← Bool.not_eq_true, isBorderRow_iff, not_or, Nat.not_lt, Nat.not_le]

/-- Only the call of index 0 ticks (R141). -/
theorem tickedFor_of_ne_zero {index : Nat} (h : index ≠ 0) (s : State) : tickedFor s index = s := if_neg h

/-- The tick does not show in a border row. -/
theorem borderRow_tickedFor (s : State) (index : Nat) : borderRow (tickedFor s index) = borderRow s := by
  rw [tickedFor_frame]
  rfl

/-- Settles O36: the row of the state after the tick is the border row of the state before it. -/
theorem borderRowIsTheBorderColour : Obligations.BorderRowIsTheBorderColour := by
  intro s index hboot hp hi hband
  have hborder : isBorderRow (tickedFor s index).cfg index = true := by
    rw [tickedFor_cfg, isBorderRow_iff]
    exact hband
  have hrow : renderRow (tickedFor s index) index = .ok (borderRow s) := by
    rw [renderRow_border hborder, borderRow_tickedFor]
  refine ⟨_, (exec_renderScanline hboot index).trans (renderScanline_ok hi hp hrow), rfl, ?_, fun hne => ?_⟩
  · rw [tickedFor_frame]
    rfl
  · rw [tickedFor_of_ne_zero hne]
    exact ⟨rfl, rfl⟩

/-! ### Lists made of pieces of one length -/

theorem length_flatMap_range {α : Type} {f : Nat → List α} {w : Nat} (hf : ∀ c, (f c).length = w) (n : Nat) :
    ((List.range n).flatMap f).length = n * w := by
  simp [List.length_flatMap, hf]

/-- Entry `j` of piece `c`. -/
theorem getElem?_flatMap_range {α : Type} {f : Nat → List α} {w : Nat} (hf : ∀ c, (f c).length = w) {n c j : Nat}
    (hc : c < n) (hj : j < w) : ((List.range n).flatMap f)[w * c + j]? = (f c)[j]? := by
  induction n with
  | zero => exact absurd hc (Nat.not_lt_zero c)
  | succ n ih =>
    have hlen := length_flatMap_range hf n
    rw [List.range_succ, List.flatMap_append, List.flatMap_singleton]
    obtain hlt | rfl := Nat.lt_succ_iff_lt_or_eq.mp hc
    · have hin : w * c + j < n * w :=
        calc w * c + j < w * (c + 1) := Nat.add_lt_add_left hj _
          _ ≤ w * n := Nat.mul_le_mul_left w hlt
          _ = n * w := Nat.mul_comm w n
      rw [List.getElem?_append_left (hlen ▸ hin), ih hlt]
    · rw [Nat.mul_comm w c, ← hlen, List.getElem?_append_right (Nat.le_add_right _ _), Nat.add_sub_cancel_left]

/-! ### Active rows (R135, R139) -/

/-- The two output entries of the pixel at place `k` of a column, counted from the left (R135). -/
def pixelEntries (p : Byte) (ink paper : ColIdx) (k : Nat) : List ColIdx :=
  List.replicate 2 (if p.getLsbD (7 - k) then ink else paper)

/-- A column is its eight pixels in order. -/
theorem expandByte_eq_pixelEntries (p : Byte) (ink paper : ColIdx) :
    expandByte p ink paper = (List.range 8).flatMap (pixelEntries p ink paper) := rfl

theorem length_pixelEntries (p : Byte) (ink paper : ColIdx) (k : Nat) : (pixelEntries p ink paper k).length = 2 :=
  List.length_replicate

/-- Output entry `j` of a column shows bit `7 - j / 2` (R135). -/
theorem expandByte_getElem? (p : Byte) (ink paper : ColIdx) {j : Nat} (hj : j < 16) :
    (expandByte p ink paper)[j]? = some (if p.getLsbD (7 - j / 2) then ink else paper) := by
  have hpixel : j / 2 < 8 := Nat.div_lt_of_lt_mul hj
  have hhalf : j % 2 < 2 := Nat.mod_lt j (by decide)
  calc (expandByte p ink paper)[j]?
      = ((List.range 8).flatMap (pixelEntries p ink paper))[2 * (j / 2) + j % 2]? := by
        rw [expandByte_eq_pixelEntries, Nat.div_add_mod]
    _ = (pixelEntries p ink paper (j / 2))[j % 2]? :=
        getElem?_flatMap_range (length_pixelEntries p ink paper) hpixel hhalf
    _ = _ := List.getElem?_replicate_of_lt hhalf

theorem length_columnEntries (s : State) (y c : Nat) : (columnEntries s y c).length = 16 := rfl

theorem columnEntries_getElem? (s : State) (y c : Nat) {j : Nat} (hj : j < 16) :
    (columnEntries s y c)[j]? =
      some (if (pixelByte s y c).getLsbD (7 - j / 2) then (attrDecode (attrByte s y c) s.flash).1
        else (attrDecode (attrByte s y c) s.flash).2) :=
  expandByte_getElem? _ _ _ hj

/-- The 32 columns fill the 512 entries between the borders. -/
theorem length_columns (s : State) (y : Nat) : ((List.range 32).flatMap (columnEntries s y)).length = 512 :=
  length_flatMap_range (length_columnEntries s y) 32

theorem length_activeRow (s : State) (y : Nat) :
    (activeRow s y).length = s.cfg.leftBorder + 512 + s.cfg.rightBorder := by
  rw [activeRow, List.length_append, List.length_append, length_columns, List.length_replicate, List.length_replicate]

theorem activeRow_leftBorder (s : State) (y : Nat) {k : Nat} (hk : k < s.cfg.leftBorder) :
    (activeRow s y)[k]? = some s.borderColor := by
  rw [activeRow, List.append_assoc, List.getElem?_append_left (by rwa [List.length_replicate]),
    List.getElem?_replicate_of_lt hk]

theorem activeRow_rightBorder (s : State) (y : Nat) {k : Nat} (hk : k < s.cfg.rightBorder) :
    (activeRow s y)[s.cfg.leftBorder + 512 + k]? = some s.borderColor := by
  have hlen : (List.replicate s.cfg.leftBorder s.borderColor ++ (List.range 32).flatMap (columnEntries s y)).length =
      s.cfg.leftBorder + 512 := by
    rw [List.length_append, length_columns, List.length_replicate]
  rw [activeRow, ← hlen, List.getElem?_append_right (Nat.le_add_right _ _), Nat.add_sub_cancel_left,
    List.getElem?_replicate_of_lt hk]

/-- Entry `j` of column `c`, after the left border. -/
theorem activeRow_column (s : State) (y : Nat) {c j : Nat} (hc : c < 32) (hj : j < 16) :
    (activeRow s y)[s.cfg.leftBorder + 16 * c + j]? = (columnEntries s y c)[j]? := by
  have hin : 16 * c + j < ((List.range 32).flatMap (columnEntries s y)).length := by
    rw [length_columns]
    omega
  rw [activeRow, List.append_assoc, Nat.add_assoc, List.getElem?_append_right (by simp), List.length_replicate,
    Nat.add_sub_cancel_left, List.getElem?_append_left hin, getElem?_flatMap_range (length_columnEntries s y) hc hj]

/-- Settles O37: an active row is no row 0, so nothing ticks; its entries by the lemmas above. -/
theorem activeRowShowsThePixels : Obligations.ActiveRowShowsThePixels := by
  intro s index hboot hp hok htop hbottom
  obtain ⟨-, -, -, -, -, hbank, -, -, htop1, hheight, -⟩ := hok
  have hticked : tickedFor s index = s := tickedFor_of_ne_zero (by omega) s
  have hrow : renderRow (tickedFor s index) index = .ok (activeRow s (index - s.cfg.topBorder)) := by
    rw [hticked]
    exact renderRow_active (isBorderRow_false_iff.mpr ⟨htop, hbottom⟩) hbank
  refine ⟨activeRow s (index - s.cfg.topBorder), ?_, length_activeRow s _, fun k => activeRow_leftBorder s _,
    fun k => activeRow_rightBorder s _, fun c j hc hj => ?_⟩
  · rw [exec_renderScanline hboot, renderScanline_ok (by omega) hp hrow, hticked, State.returning_eq]
  · rw [activeRow_column s _ hc hj, columnEntries_getElem? s _ c hj]
    rfl

/-! ### The decoder and the pool (R139) -/

/-- The tick reads no pool byte and writes none. -/
theorem tickedFor_withPool (s : State) (m : Memory) (index : Nat) :
    tickedFor (s.withPool m) index = (tickedFor s index).withPool m := by
  simp only [tickedFor, frameTick, apply_ite (State.withPool · m)]
  rfl

theorem borderRow_withPool (s : State) (m : Memory) : borderRow (s.withPool m) = borderRow s := rfl

@[simp] theorem tickedFor_pool (s : State) (index : Nat) : (tickedFor s index).pool = s.pool := by
  rw [tickedFor_frame]

section
variable {s : State} {m : Memory} (hok : s.cfg.Ok)
  (hm : ∀ o, o < 16384 →
    Memory.read m (s.cfg.displayBank * 16384 + o) = Memory.read s.pool (s.cfg.displayBank * 16384 + o))
include hok hm

/-- A column is made of two bytes of the display bank. -/
theorem columnEntries_withPool {y c : Nat} (hy : y < 192) (hc : c < 32) :
    columnEntries (s.withPool m) y c = columnEntries s y c := by
  have hpixel : pixelByte (s.withPool m) y c = pixelByte s y c := hm _ (pixelOffset_lt hy hc)
  have hattr : attrByte (s.withPool m) y c = attrByte s y c := hm _ (attrOffset_lt hok hy hc)
  simp only [columnEntries, hpixel, hattr, State.withPool_flash]

theorem activeRow_withPool {y : Nat} (hy : y < 192) : activeRow (s.withPool m) y = activeRow s y := by
  have hcolumns : (List.range 32).flatMap (columnEntries (s.withPool m) y) =
      (List.range 32).flatMap (columnEntries s y) :=
    List.flatMap_congr fun c hc => columnEntries_withPool hok hm hy (List.mem_range.mp hc)
  simp only [activeRow, hcolumns, State.withPool_cfg, State.withPool_borderColor]

/-- A row is the same over two pools that agree on the display bank: a border row reads neither. -/
theorem renderRow_withPool (index : Nat) : renderRow (s.withPool m) index = renderRow s index := by
  obtain ⟨-, -, -, -, -, hbank, -⟩ := id hok
  cases hband : isBorderRow s.cfg index with
  | true => rw [renderRow_border hband, renderRow_border (s := s.withPool m) hband, borderRow_withPool]
  | false =>
    obtain ⟨htop, hbottom⟩ := isBorderRow_false_iff.mp hband
    rw [renderRow_active hband hbank, renderRow_active (s := s.withPool m) hband hbank, State.withPool_cfg,
      activeRow_withPool hok hm (by omega)]

end

/-- Settles O43: the tick keeps the pool, so the pools still agree where the row is read. -/
theorem rowDependsOnlyOnTheDisplayBank : Obligations.RowDependsOnlyOnTheDisplayBank := by
  intro s t index m hok hm h
  obtain ⟨hboot, h⟩ := whenBooted_next h
  have hcall : exec (.renderScanline index) (s.withPool m) = renderScanline (s.withPool m) index :=
    exec_renderScanline (s := s.withPool m) hboot index
  obtain ⟨hi, ⟨hp, rfl⟩ | ⟨hp, row, hrow, rfl⟩⟩ := renderScanline_next h
  · exact hcall.trans (renderScanline_unpowered hi hp)
  · have hticked := tickedFor_withPool s m index
    have hrow' : renderRow (tickedFor (s.withPool m) index) index = .ok row := by
      rw [hticked, renderRow_withPool (by simpa using hok) (by simpa using hm), hrow]
    rw [← State.withPool_eq, hcall, renderScanline_ok (s := s.withPool m) hi hp hrow', hticked]
    rfl

/-! ### The frame tick (R141) -/

/-- The call of index 0, powered, ticks and answers a row. -/
theorem exec_renderScanline_zero {s : State} (hboot : s.booted = true) (hp : s.powered = true) (hok : s.cfg.Ok) :
    ∃ row, exec (.renderScanline 0) s = .next ((frameTick s).returning (.row row)) := by
  obtain ⟨-, -, -, -, -, hbank, -, -, -, hheight, -⟩ := hok
  obtain ⟨row, hrow⟩ := renderRow_total (s := tickedFor s 0) (by rwa [tickedFor_cfg]) 0
  exact ⟨row, (exec_renderScanline hboot 0).trans (renderScanline_ok (by omega) hp hrow)⟩

/-- The tick writes the counter and the flash bit only. -/
theorem frameTick_frame (s : State) :
    frameTick s = { s with frameCount := (frameTick s).frameCount, flash := (frameTick s).flash } :=
  tickedFor_frame s 0

/-- A scanline that completes is the tick of index 0, or leaves the counter and the flash bit alone. -/
theorem renderScanline_clock {s t : State} {index : Nat} (h : renderScanline s index = .next t)
    (hno : index ≠ 0 ∨ s.powered = false) : t.frameCount = s.frameCount ∧ t.flash = s.flash := by
  obtain ⟨-, ⟨-, rfl⟩ | ⟨hp, row, -, rfl⟩⟩ := renderScanline_next h
  · exact ⟨rfl, rfl⟩
  · have hne : index ≠ 0 := hno.resolve_right (by rw [hp]; decide)
    rw [tickedFor_of_ne_zero hne]
    exact ⟨rfl, rfl⟩

/-- Settles O38: the two cases of the tick, and the calls that do not tick. -/
theorem frameTickCountsToNineteen : Obligations.FrameTickCountsToNineteen := by
  refine ⟨fun s hboot hp hok => ?_, fun s t index hno h => renderScanline_clock (whenBooted_next h).2 hno⟩
  obtain ⟨row, hrow⟩ := exec_renderScanline_zero hboot hp hok
  refine ⟨_, hrow, ?_, ?_⟩
  · rw [frameTick_frame]
    rfl
  · obtain ⟨hwrap, h⟩ | ⟨hwrap, h⟩ := frameTick_cases s <;> rw [h]
    · exact ⟨fun _ => ⟨rfl, rfl⟩, fun hne => absurd hwrap hne⟩
    · exact ⟨fun heq => absurd heq hwrap, fun _ => ⟨rfl, rfl⟩⟩

/-! ### The flash period (R142) -/

/-- The counter and the flash bit are those of `n` frame boundaries since POWER_ON. -/
def CountsFrames (n : Nat) (s : State) : Prop := s.frameCount = n % 19 ∧ (s.flash = true ↔ n / 19 % 2 = 1)

/-- One tick is one boundary more: the counter wraps, and flash toggles, at each multiple of 19. -/
theorem frameTick_countsFrames {n : Nat} {s : State} (h : CountsFrames n s) : CountsFrames (n + 1) (frameTick s) := by
  obtain ⟨hcount, hflash⟩ := h
  obtain ⟨hwrap, ht⟩ | ⟨hwrap, ht⟩ := frameTick_cases s <;> rw [ht]
  · have htoggle : (!s.flash) = true ↔ ¬ n / 19 % 2 = 1 := by rw [← hflash, Bool.not_eq_true', Bool.not_eq_true]
    refine ⟨?_, htoggle.trans ?_⟩
    · show 0 = (n + 1) % 19
      omega
    · omega
  · refine ⟨?_, hflash.trans ?_⟩
    · show s.frameCount + 1 = (n + 1) % 19
      omega
    · omega

/-- What the count of boundaries is about: the counter, the flash bit and the power bit. -/
def State.frameClock (s : State) : Nat × Bool × Bool := (s.frameCount, s.flash, s.powered)

theorem CountsFrames.congr {n : Nat} {s t : State} (h : CountsFrames n s) (ht : t.frameClock = s.frameClock) :
    CountsFrames n t := by
  obtain ⟨hcount, hflash, -⟩ : t.frameCount = s.frameCount ∧ t.flash = s.flash ∧ t.powered = s.powered := by
    simpa [State.frameClock] using ht
  rwa [CountsFrames, hcount, hflash]

/-- The calls that write the counter, the flash bit or the power bit (R141; 70_reset_and_hazards.md R192, R193). -/
def writesFrameClock : Instr → Bool
  | .powerOn _ => true
  | .powerOff => true
  | .renderScanline _ => true
  | _ => false

theorem ActionEffect.frameClock {s t : State} {a : HandlerAction} (h : ActionEffect s a t) :
    t.frameClock = s.frameClock := by
  cases h with
  | stores r h => rw [h.eq]; rfl
  | remaps r hb => rfl
  | resumes x => rfl
  | setsRegs regs => rfl
  | setsHost host => rfl

theorem dispatchTraps_frameClock {s t : State} {addr : Va} {es : List TrapEntry}
    (h : dispatchTraps s addr es = .next t) : t.frameClock = s.frameClock :=
  dispatchTraps_keeps (P := fun u => u.frameClock = s.frameClock) (ok := fun _ => True)
    (fun _ _ _ _ he hs => he.frameClock.trans hs) (fun _ _ _ hs => hs) (fun _ _ _ _ _ _ => trivial) h rfl

theorem bankWrite_frameClock (s : State) (v : Byte) : (bankWrite s v).frameClock = s.frameClock := by
  obtain ⟨-, h⟩ | ⟨-, h⟩ := bankWrite_cases s v <;> rw [h]
  rfl

theorem portOut_frameClock (s : State) (port : Word) (v : Byte) : (portOut s port v).frameClock = s.frameClock := by
  simp only [portOut]
  split
  · exact bankWrite_frameClock s v
  · rfl

theorem exec_frameClock_of_handlerMayCall {i : Instr} (hm : handlerMayCall i = true) {s t : State}
    (h : exec i s = .next t) : t.frameClock = s.frameClock :=
  (exec_effect_of_handlerMayCall hm h).frameClock

/-- Every other call leaves the three alone, handlers included. -/
theorem exec_frameClock {i : Instr} (hi : writesFrameClock i = false) {s t : State} (h : exec i s = .next t) :
    t.frameClock = s.frameClock := by
  cases i
  case translate | readByte | writeByte | readWord | writeWord | remap | resumeAt | createHeaderBlock | writeBlock =>
    exact exec_frameClock_of_handlerMayCall rfl h
  case cpuRead => rw [exec_cpuRead] at h; exact exec_frameClock_of_handlerMayCall rfl h
  case cpuWrite => rw [exec_cpuWrite] at h; exact exec_frameClock_of_handlerMayCall rfl h
  case reset | portIn => obtain ⟨-, ⟨⟩⟩ := whenBooted_next h; rfl
  case bankWrite v => obtain ⟨-, ⟨⟩⟩ := whenBooted_next h; exact bankWrite_frameClock s v
  case portOut port v => obtain ⟨-, ⟨⟩⟩ := whenBooted_next h; exact portOut_frameClock s port v
  case fetchOpcode addr =>
    obtain ⟨u, hu, -, rfl⟩ := fetchOpcode_next (whenBooted_next h).2
    have hkept := dispatchTraps_frameClock hu
    exact hkept
  case attrDecode => cases h; rfl
  case setBorder =>
    obtain ⟨-, h⟩ := whenBooted_next h
    split at h <;> cases h
    rfl
  case lineOffset =>
    simp only [exec, execLineOffset] at h
    split at h <;> cases h
    rfl
  case powerOn | powerOff | renderScanline => cases hi

theorem boundariesAfter_cons {i : Instr} (hi : writesFrameClock i = false) (n : Nat) (p : Bool) (is : List Instr) :
    boundariesAfter n p (i :: is) = boundariesAfter n p is := by
  cases i
  case powerOn | powerOff | renderScanline => cases hi
  all_goals rfl

/-- A scanline counts when it is row 0 and powered, and is then the tick. -/
theorem renderScanline_countsFrames {n index : Nat} {s t : State} (hs : CountsFrames n s)
    (h : renderScanline s index = .next t) :
    ∃ m, CountsFrames m t ∧
      ∀ is, boundariesAfter n s.powered (.renderScanline index :: is) = boundariesAfter m t.powered is := by
  obtain ⟨-, ⟨hp, rfl⟩ | ⟨hp, row, -, rfl⟩⟩ := renderScanline_next h
  · refine ⟨n, hs, fun is => ?_⟩
    cases index with
    | zero => simp [boundariesAfter, hp]
    | succ k => rfl
  · cases index with
    | zero =>
      have hp' : (frameTick s).powered = true := by rw [frameTick_frame, hp]
      refine ⟨n + 1, frameTick_countsFrames hs, fun is => ?_⟩
      show _ = boundariesAfter (n + 1) (frameTick s).powered is
      rw [hp', hp]
      rfl
    | succ k => exact ⟨n, hs, fun is => rfl⟩

/-- Every call that completes leaves the count that `boundariesAfter` goes on with. -/
theorem exec_countsFrames {n : Nat} {i : Instr} {s t : State} (hs : CountsFrames n s) (h : exec i s = .next t) :
    ∃ m, CountsFrames m t ∧ ∀ is, boundariesAfter n s.powered (i :: is) = boundariesAfter m t.powered is := by
  cases hi : writesFrameClock i with
  | false =>
    have ht := exec_frameClock hi h
    have hp : t.powered = s.powered := congrArg (fun clock => clock.2.2) ht
    exact ⟨n, hs.congr ht, fun is => hp ▸ boundariesAfter_cons hi n s.powered is⟩
  | true =>
    cases i
    case powerOn => cases h; exact ⟨0, ⟨rfl, nofun, nofun⟩, fun _ => rfl⟩
    case powerOff => obtain ⟨-, ⟨⟩⟩ := whenBooted_next h; exact ⟨n, hs, fun _ => rfl⟩
    case renderScanline => exact renderScanline_countsFrames hs (whenBooted_next h).2
    all_goals cases hi

theorem runCalls_countsFrames {calls : List Instr} {n : Nat} {s t : State} (hs : CountsFrames n s)
    (h : runCalls calls s = .next t) : CountsFrames (boundariesAfter n s.powered calls) t := by
  induction calls generalizing n s with
  | nil => cases h; exact hs
  | cons i is ih =>
    simp only [runCalls] at h
    split at h
    · next u hu =>
      obtain ⟨m, hm, hrest⟩ := exec_countsFrames hs hu
      rw [hrest]
      exact ih hm h
    · cases h
    · cases h

/-- Frame boundaries with nothing between them complete, each counting one. -/
theorem frameBoundaries_total {s : State} (hboot : s.booted = true) (hp : s.powered = true) (hok : s.cfg.Ok) {m : Nat}
    (hs : CountsFrames m s) (n : Nat) : ∃ t, frameBoundaries n s = .next t ∧ CountsFrames (m + n) t := by
  induction n generalizing s m with
  | zero => exact ⟨s, rfl, hs⟩
  | succ n ih =>
    obtain ⟨row, hrow⟩ := exec_renderScanline_zero hboot hp hok
    have hticked : CountsFrames (m + 1) ((frameTick s).returning (.row row)) := frameTick_countsFrames hs
    obtain ⟨t, ht, hcount⟩ := ih (by rw [frameTick_frame]; exact hboot) (by rw [frameTick_frame]; exact hp)
      (by rw [frameTick_frame]; exact hok) hticked
    refine ⟨t, by rw [frameBoundaries, hrow]; exact ht, ?_⟩
    rwa [Nat.add_right_comm, Nat.add_assoc] at hcount

/-- Settles O39: the count is kept by every call (`runCalls_countsFrames`), and is 0 to begin with. -/
theorem flashPeriodIsNineteenFrames : Obligations.FlashPeriodIsNineteenFrames := by
  refine ⟨fun calls n s t hcount hflash h => runCalls_countsFrames ⟨hcount, hflash⟩ h, ?_⟩
  intro n s hboot hp hok hcount hflash
  have hzero : CountsFrames 0 s := ⟨hcount, by rw [hflash]; decide⟩
  obtain ⟨t, ht, hn⟩ := frameBoundaries_total hboot hp hok hzero n
  rw [Nat.zero_add] at hn
  exact ⟨t, ht, hn⟩

/-! ### The border colour (R144) -/

/-- Settles O44: a colour in range is the number of the index stored. -/
theorem setBorderStoresTheColour : Obligations.SetBorderStoresTheColour := by
  intro s c hboot
  refine ⟨fun hc => ⟨BitVec.ofNat 4 c, Nat.mod_eq_of_lt hc, ?_⟩, fun hc => ?_⟩
  · rw [exec, execSetBorder, whenBooted_of hboot, if_pos hc]
  · rw [exec, execSetBorder, whenBooted_of hboot, if_neg (Nat.not_lt.mpr hc)]

end Sys2Proof.Machine
end

section
/-! PROOFS of the family 44_tape_interface.md: CREATE_HEADER_BLOCK writes the header payload as WRITE_BLOCK would (O45), and
where the bytes of a WRITE_BLOCK go (O46). A header is a sequence of byte, block and word writes, which
`writeBlock_append` joins into one block; a block is followed byte by byte, each later byte stored over the earlier ones. -/

namespace Sys2Proof.Machine

/-! ### The header payload (R161) -/

/-- A name of at most 10 bytes, padded with spaces, is the name field byte by byte. -/
theorem padded_name_eq_nameBytes {name : List Byte} (hn : name.length ≤ 10) :
    name ++ List.replicate (10 - name.length) 0x20#8 = (List.range 10).map (nameByte name) := by
  refine List.ext_getElem ?_ fun i _ _ => ?_
  · simp only [List.length_append, List.length_replicate, List.length_map, List.length_range]
    omega
  · simp only [List.getElem_map, List.getElem_range, nameByte, List.getElem_append, List.getElem_replicate,
      List.getD_eq_getElem?_getD]
    split
    · next hi => rw [List.getElem?_eq_getElem hi, Option.getD_some]
    · next hi => rw [List.getElem?_eq_none (Nat.le_of_not_lt hi), Option.getD_none]

theorem headerPayload_eq_nameBytes {name : List Byte} (hn : name.length ≤ 10) (kind : Byte) (len p1 p2 : Word) :
    headerPayload kind name len p1 p2 =
      kind :: (List.range 10).map (nameByte name) ++
        [lowByte len, highByte len, lowByte p1, highByte p1, lowByte p2, highByte p2] := by
  rw [headerPayload, padded_name_eq_nameBytes hn]

theorem headerPayload_nameByte {name : List Byte} (hn : name.length ≤ 10) (kind : Byte) (len p1 p2 : Word) {i : Nat}
    (hi : i < 10) : (headerPayload kind name len p1 p2)[1 + i]? = some (nameByte name i) := by
  rw [headerPayload_eq_nameBytes hn, Nat.add_comm, List.cons_append, List.getElem?_cons_succ,
    List.getElem?_append_left (by simpa using hi), List.getElem?_map, List.getElem?_range hi, Option.map_some]

/-- The writes of a header lie one after the other, so they are one block. -/
theorem createHeader_eq_writeBlock {name : List Byte} (hn : name.length ≤ 10) (s : State) (t : Va) (kind : Byte)
    (len p1 p2 : Word) :
    createHeader s t kind name len p1 p2 = writeBlock s t (headerPayload kind name len p1 p2) := by
  have hparts : headerPayload kind name len p1 p2 =
      ((([kind] ++ (List.range 10).map (nameByte name)) ++ [lowByte len, highByte len]) ++
        [lowByte p1, highByte p1]) ++ [lowByte p2, highByte p2] := headerPayload_eq_nameBytes hn ..
  rw [hparts]
  simp only [writeBlock_append, ← writeWord_eq_writeBlock, bind_assoc]
  simp [createHeader, writeBlock]

theorem exec_createHeaderBlock_eq_writeBlock {name : List Byte} (hn : name.length ≤ 10) (s : State) (t : Va)
    (kind : Byte) (len p1 p2 : Word) :
    exec (.createHeaderBlock t kind name len p1 p2) s = exec (.writeBlock t (headerPayload kind name len p1 p2)) s := by
  rw [exec, exec, execCreateHeaderBlock, execWriteBlock, answerHeader, if_pos hn, createHeader_eq_writeBlock hn]

/-- Settles O45: the payload's bytes by position, the one block the header's writes make, and the length check. -/
theorem headerIsTheSeventeenPayloadBytes : Obligations.HeaderIsTheSeventeenPayloadBytes := by
  intro s t kind name len p1 p2 hboot
  refine ⟨fun hn => ?_, fun hlong => ?_⟩
  · have hname := fun i => headerPayload_nameByte hn kind len p1 p2 (i := i)
    have hwrites := exec_createHeaderBlock_eq_writeBlock hn s t kind len p1 p2
    have hdone := fun hb : s.BanksExist => exec_total_of_handlerMayCall hboot hb
      (i := .createHeaderBlock t kind name len p1 p2) rfl (decide_eq_true hn)
    rw [headerPayload_eq_nameBytes hn] at hname hwrites ⊢
    simp only [← lowByte_eq_ofNat, ← highByte_eq_ofNat]
    exact ⟨rfl, rfl, hname, rfl, rfl, rfl, rfl, rfl, rfl, hwrites, hdone⟩
  · rw [exec, execCreateHeaderBlock, whenBooted_of hboot, answerHeader, if_neg (Nat.not_le.mpr hlong)]

/-! ### Where the bytes of a block go (R164) -/

section
variable {s t : State} {va : Va} {v : Byte} {a : Nat}

theorem writeByte_read_of_ne (h : writeByte s va v = .ok t)
    (ha : (s.slotOf va).policy = .readWrite → a ≠ s.physOf va) : Memory.read t.pool a = Memory.read s.pool a := by
  rcases writeByte_cases h with ⟨-, rfl⟩ | ⟨hp, -, rfl⟩
  · rfl
  · rw [State.withPool_pool, Memory.read_write, if_neg (ha hp)]

theorem writeByte_read_same (h : writeByte s va v = .ok t) (hp : (s.slotOf va).policy = .readWrite) :
    Memory.read t.pool (s.physOf va) = v := by
  rcases writeByte_cases h with ⟨hro, -⟩ | ⟨-, -, rfl⟩
  · rw [hp] at hro
    cases hro
  · rw [State.withPool_pool, Memory.read_write, if_pos rfl]

end

/-- The next byte's address counts from the next address. -/
theorem add_ofNat_succ (va : Va) (i : Nat) : va + BitVec.ofNat 16 (i + 1) = va + 1#16 + BitVec.ofNat 16 i := by
  rw [Nat.add_comm, BitVec.ofNat_add, BitVec.add_assoc]

/-- A byte that no byte of the block lands on keeps its value. -/
theorem writeBlock_read_of_ne {s u : State} {va : Va} {data : List Byte} {a : Nat} (h : writeBlock s va data = .ok u)
    (ha : ∀ i, i < data.length → (s.slotOf (va + BitVec.ofNat 16 i)).policy = .readWrite →
      a ≠ s.physOf (va + BitVec.ofNat 16 i)) :
    Memory.read u.pool a = Memory.read s.pool a := by
  induction data generalizing s va with
  | nil => cases h; rfl
  | cons v vs ih =>
    rw [writeBlock, Except.bind_ok_iff] at h
    obtain ⟨t, ht, hu⟩ := h
    have hkeep := writeByte_storesOnly ht
    have hrest : Memory.read u.pool a = Memory.read t.pool a := by
      refine ih hu fun i hi => ?_
      rw [hkeep.slotOf, hkeep.physOf, ← add_ofNat_succ]
      exact ha (i + 1) (Nat.succ_lt_succ hi)
    rw [hrest]
    exact writeByte_read_of_ne ht (by simpa using ha 0 (Nat.succ_pos _))

/-- A byte of the block that is stored, and that no later byte is stored over, reads back: the bytes after it keep it. -/
theorem writeBlock_read_last {s u : State} {va : Va} {data : List Byte} {i : Nat} {v : Byte}
    (h : writeBlock s va data = .ok u) (hv : data[i]? = some v)
    (hp : (s.slotOf (va + BitVec.ofNat 16 i)).policy = .readWrite)
    (hlast : ∀ j, i < j → j < data.length → (s.slotOf (va + BitVec.ofNat 16 j)).policy = .readWrite →
      s.physOf (va + BitVec.ofNat 16 j) ≠ s.physOf (va + BitVec.ofNat 16 i)) :
    Memory.read u.pool (s.physOf (va + BitVec.ofNat 16 i)) = v := by
  induction data generalizing s va i with
  | nil => cases hv
  | cons w vs ih =>
    rw [writeBlock, Except.bind_ok_iff] at h
    obtain ⟨t, ht, hu⟩ := h
    have hkeep := writeByte_storesOnly ht
    cases i with
    | zero =>
      cases hv
      rw [show va + BitVec.ofNat 16 0 = va from BitVec.add_zero va] at hp hlast ⊢
      have hrest : Memory.read u.pool (s.physOf va) = Memory.read t.pool (s.physOf va) := by
        refine writeBlock_read_of_ne hu fun j hj hpj => ?_
        rw [hkeep.slotOf, ← add_ofNat_succ] at hpj
        rw [hkeep.physOf, ← add_ofNat_succ]
        exact (hlast (j + 1) (Nat.succ_pos j) (Nat.succ_lt_succ hj) hpj).symm
      rw [hrest]
      exact writeByte_read_same ht hp
    | succ i =>
      rw [add_ofNat_succ, ← hkeep.physOf]
      refine ih hu hv ?_ fun j hij hj => ?_
      · rw [hkeep.slotOf, ← add_ofNat_succ]
        exact hp
      · simp only [hkeep.slotOf, hkeep.physOf, ← add_ofNat_succ]
        exact hlast (j + 1) (Nat.succ_lt_succ hij) (Nat.succ_lt_succ hj)

/-- Settles O46: the block completes and changes the pool only (`writeBlock_storesOnly`); the two clauses on pool bytes are the
lemmas above. -/
theorem writeBlockStoresAscendingBytes : Obligations.WriteBlockStoresAscendingBytes := by
  intro s t data hboot hb
  obtain ⟨u, hu⟩ := writeBlock_total hb t data
  refine ⟨u.returning .unit, ?_, ?_, fun a => writeBlock_read_of_ne (u := u) hu,
    fun i v => writeBlock_read_last (u := u) hu⟩
  · rw [exec, execWriteBlock, whenBooted_of hboot, hu, answerState_ok]
  · rw [(writeBlock_storesOnly hu).eq]
    rfl

end Sys2Proof.Machine
end

section
/-! PROOFS of the family 60_exceptions.md: no step from a good state faults (O55). A fault is an access to a bank that does not
exist (20_memory.md R41); the invariant gives every bank the block can name, and no handler takes an existing bank away. -/

namespace Sys2Proof.Machine

theorem noFault_of_next {o : Host.Outcome State Fault Refusal} (h : ∃ t, o = .next t) : noFault o := by
  obtain ⟨t, rfl⟩ := h
  trivial

theorem fetchOpcode_noFault {s : State} (h : s.BanksExist) (addr : Va) : noFault (fetchOpcode s addr) := by
  have hd := dispatchTraps_noFault h addr s.cfg.trapTable
  cases ht : dispatchTraps s addr s.cfg.trapTable with
  | next u =>
    rw [fetchOpcode, ht]
    exact noFault_of_next (answerByte_total (dispatchTraps_banksExist ht h) addr)
  | fault f => rw [ht] at hd; exact hd.elim
  | refused r => rw [fetchOpcode, ht]; trivial

theorem renderScanline_noFault {s : State} (hd : s.cfg.displayBank < s.cfg.numBanks) (index : Nat) :
    noFault (renderScanline s index) := by
  by_cases hi : index < s.cfg.height
  · exact noFault_of_next (renderScanline_total hd hi)
  · rw [renderScanline, if_neg hi]
    trivial

theorem exec_noFault_of_handlerMayCall {s : State} (h : s.BanksExist) {i : Instr} (hm : handlerMayCall i = true) :
    noFault (exec i s) := by
  rw [exec_of_handlerMayCall hm]
  exact whenBooted_noFault (runAction_noFault h (.call i))

/-- No call faults, in its domain or not: of the invariant only the existing banks, slots' and display, are needed. -/
theorem exec_noFault {s : State} (h : s.BanksExist) (hd : s.cfg.displayBank < s.cfg.numBanks) (i : Instr) :
    noFault (exec i s) := by
  cases i
  case translate | readByte | writeByte | readWord | writeWord | remap | resumeAt | createHeaderBlock | writeBlock =>
    exact exec_noFault_of_handlerMayCall h rfl
  case cpuRead => rw [exec_cpuRead]; exact exec_noFault_of_handlerMayCall h rfl
  case cpuWrite => rw [exec_cpuWrite]; exact exec_noFault_of_handlerMayCall h rfl
  case reset | powerOff | bankWrite | portIn | portOut => exact whenBooted_noFault trivial
  case powerOn | attrDecode => trivial
  case fetchOpcode addr => exact whenBooted_noFault (fetchOpcode_noFault h addr)
  case renderScanline index => exact whenBooted_noFault (renderScanline_noFault hd index)
  case setBorder => refine whenBooted_noFault ?_; split <;> trivial
  case lineOffset => rw [exec, execLineOffset]; split <;> trivial

/-- Settles O55: an idle step and an undecodable record do not fault, and the oldest call runs in a state with the same banks,
where `exec_noFault` applies. -/
theorem noStepFromAGoodStateFaults : Obligations.NoStepFromAGoodStateFaults := by
  intro s hinv
  obtain ⟨hok, hbanks, -⟩ := hinv
  obtain ⟨-, -, -, -, -, hd, -⟩ := hok
  rw [step]
  split
  · trivial
  · next r t ht =>
    split
    · next i _ =>
      rw [(takeCall_some ht).2]
      exact exec_noFault (s := { s with pending := t.pending }) hbanks hd i
    · trivial

end Sys2Proof.Machine
end

section
/-! PROOFS of the family 70_reset_and_hazards.md: no step without REMAP changes a ROM byte (O57), the machine before its first
POWER_ON (O50), RESET, POWER_ON and POWER_OFF (O47, O48, O49), the state they leave under the default parameters (O51), and
the call a step runs (O52). O57 turns on one fact: under the slot layout a ReadWrite slot shows a RAM bank
(`bank_lt_of_readWrite`), so a store cannot reach the ROM banks. -/

namespace Sys2Proof.Machine

/-! ### The ROM bytes (R195) -/

/-- The ROM bytes of the state are those of the pool `m`. -/
def State.HoldsRom (m : Memory) (s : State) : Prop :=
  ∀ a, romStart s.cfg ≤ a → Memory.read s.pool a = Memory.read m a

/-- What O57 follows from step to step: the slot layout, and the ROM bytes it protects. -/
def State.RomGuarded (v : Variant) (m : Memory) (s : State) : Prop := s.cfg.Ok ∧ s.SlotLayout v ∧ s.HoldsRom m

/-- Under the slot layout a ReadWrite slot shows a RAM bank: slot 0 is ReadOnly, slots 1 and 2 are fixed, and slot 3 holds
its reset bank or one of the RAM banks 0 to 7. -/
theorem bank_lt_of_readWrite {s : State} {v : Variant} (hok : s.cfg.Ok) (hs : s.SlotLayout v) {va : Va}
    (hp : (s.slotOf va).policy = .readWrite) : (s.slotOf va).bank < numRamBanks s.cfg := by
  obtain ⟨hn, hb1, hb2, hb3, -⟩ := hok
  obtain ⟨h0, h1, h2, -, hsimple, hbanked⟩ := hs
  rw [slotOf_eq_register] at hp ⊢
  split_ifs at hp ⊢
  · cases h0.symm.trans hp
  · rw [h1]; exact hb1
  · rw [h2]; exact hb2
  · cases v with
    | simple =>
      obtain ⟨-, h3, -⟩ := hsimple rfl
      rw [h3]; exact hb3
    | banked =>
      obtain ⟨-, h3 | h3⟩ := hbanked rfl
      · rw [h3]; exact hb3
      · rw [numRamBanks]; omega

/-- An address in a RAM bank translates below the ROM banks. -/
theorem physOf_lt_romStart {s : State} {va : Va} (h : (s.slotOf va).bank < numRamBanks s.cfg) :
    s.physOf va < romStart s.cfg := by
  have hoffset : va.toNat % 16384 < 16384 := Nat.mod_lt _ (by decide)
  rw [physOf_eq, romStart]
  omega

theorem StoresOnly.romGuarded {s t : State} {v : Variant} {m : Memory} (h : StoresOnly s t) (hs : s.RomGuarded v m) :
    t.RomGuarded v m := by
  obtain ⟨hok, hlayout, hrom⟩ := hs
  refine ⟨h.cfg ▸ hok, h.slotLayout hlayout, fun a ha => ?_⟩
  rw [h.cfg] at ha
  have hmiss : ∀ va, (s.slotOf va).policy = .readWrite → a ≠ s.physOf va := fun va hp =>
    Nat.ne_of_gt ((physOf_lt_romStart (bank_lt_of_readWrite hok hlayout hp)).trans_le ha)
  rw [h.frame a hmiss, hrom a ha]

theorem ActionEffect.romGuarded {s t : State} {a : HandlerAction} {v : Variant} {m : Memory} (h : ActionEffect s a t)
    (ha : actionIsRemap a = false) (hs : s.RomGuarded v m) : t.RomGuarded v m := by
  cases h with
  | stores r h => exact h.romGuarded hs
  | remaps r hb => cases ha
  | resumes x => exact hs
  | setsRegs regs => exact hs
  | setsHost host => exact hs

theorem dispatchTraps_romGuarded {s t : State} {addr : Va} {es : List TrapEntry} {v : Variant} {m : Memory}
    (hk : ∀ e ∈ es, HandlerKeepsMapping e.handler) (h : dispatchTraps s addr es = .next t) (hs : s.RomGuarded v m) :
    t.RomGuarded v m :=
  dispatchTraps_keeps (P := State.RomGuarded v m) (ok := fun a => actionIsRemap a = false)
    (fun _ _ _ ha he hs => he.romGuarded ha hs) (fun _ _ _ hs => hs) (fun e he _ => hk e he) h hs

@[simp] theorem bankWrite_pool (s : State) (v : Byte) : (bankWrite s v).pool = s.pool := by
  obtain ⟨-, h⟩ | ⟨-, h⟩ := bankWrite_cases s v <;> rw [h]

@[simp] theorem portOut_pool (s : State) (port : Word) (v : Byte) : (portOut s port v).pool = s.pool := by
  rw [portOut, apply_ite State.pool, bankWrite_pool, ite_self]

/-- A call that writes neither the parameters nor the pool keeps the ROM bytes. -/
theorem State.HoldsRom.congr {m : Memory} {s t : State} (hs : s.HoldsRom m) (hc : t.cfg = s.cfg)
    (hp : t.pool = s.pool) : t.HoldsRom m := by
  rwa [State.HoldsRom, hc, hp]

/-- RESET leaves the RAM banks zeroed and the ROM banks as they were (R190, R191). -/
theorem read_resetBlock (s : State) (v : Variant) (a : Nat) :
    Memory.read (resetBlock s v).pool a = if a < romStart s.cfg then 0#8 else Memory.read s.pool a :=
  Memory.read_zeroBelow s.pool (romStart s.cfg) a

theorem resetBlock_holdsRom {s : State} {m : Memory} (hs : s.HoldsRom m) (w : Variant) :
    (resetBlock s w).HoldsRom m := by
  intro a ha
  have hkept := (read_resetBlock s w a).trans (if_neg (Nat.not_lt.mpr ha))
  exact hkept.trans (hs a ha)

/-- A call that is no REMAP keeps the ROM bytes: a store misses them, and no other effect reaches them. -/
theorem CallEffect.holdsRom {s t : State} {i : Instr} {v : Variant} {m : Memory} (h : CallEffect s i t)
    (hi : ∀ k b p, i ≠ .remap k b p) (hk : TrapsKeepMapping s.cfg) (hs : s.RomGuarded v m) : t.HoldsRom m := by
  obtain ⟨-, -, hrom⟩ := id hs
  cases h with
  | stores r h => obtain ⟨-, -, hu⟩ := h.romGuarded hs; exact hu
  | remaps r hb => exact absurd rfl (hi _ _ _)
  | fetches r h => obtain ⟨-, -, hu⟩ := dispatchTraps_romGuarded hk h hs; exact hu
  | banks b => exact hrom.congr (bankWrite_cfg s b) (bankWrite_pool s b)
  | portOuts port b => exact hrom.congr (portOut_cfg s port b) (portOut_pool s port b)
  | resets w => exact resetBlock_holdsRom hrom w
  | powersOn w => exact resetBlock_holdsRom hrom w
  | renders index r => exact hrom.congr (tickedFor_cfg s index) (tickedFor_pool s index)
  | outside h => rw [h]; exact hrom

/-- Settles O57: an idle step keeps the state, and each effect of a call other than REMAP keeps the ROM bytes the state had. -/
theorem stepsWithoutRemapNeverChangeRom : Obligations.StepsWithoutRemapNeverChangeRom := by
  intro s t v hok hs hk hnext h a ha
  obtain rfl | ⟨r, u, i, hr, hd, hu, he⟩ := step_effect h
  · rfl
  · have hi : ∀ k b p, i ≠ .remap k b p := fun k b p hrm => hnext r u k b p hr (hrm ▸ hd)
    have hcfg : u.cfg = s.cfg := by rw [hu]
    have hguarded : u.RomGuarded v s.pool := by rw [hu]; exact ⟨hok, hs, fun _ _ => rfl⟩
    exact he.holdsRom hi (hcfg ▸ hk) hguarded a (by rwa [noStepWritesTheParameters s t h])

/-! ### Before POWER_ON (R197, R198) -/

/-- The host's load: the image's bytes in the ROM banks, 0 elsewhere, whatever the image. -/
theorem read_romLoad (c : Config) (image : Memory) (a : Nat) :
    Memory.read (image.foldr (loadRomByte c) []) a =
      if romStart c ≤ a ∧ a < c.numBanks * 16384 then Memory.read image a else 0#8 := by
  induction image with
  | nil => exact (ite_self _).symm
  | cons cell image ih =>
    rw [List.foldr_cons, read_loadRomByte, ih, Memory.read]
    by_cases hrom : romStart c ≤ a ∧ a < c.numBanks * 16384
    · simp only [hrom, and_self, and_true, if_true]
    · simp only [hrom, and_false, if_false]

theorem whenBooted_refused {s : State} (h : s.booted = false) (k : Host.Outcome State Fault Refusal) :
    whenBooted s k = .refused .beforePowerOn := by simp [whenBooted, h]

/-- Every operation but POWER_ON is refused before the first POWER_ON; the two pure functions are no operations. -/
theorem exec_beforePowerOn {s : State} (hboot : s.booted = false) {i : Instr} (hpower : ∀ v, i ≠ .powerOn v)
    (hline : ∀ y, i ≠ .lineOffset y) (hattr : ∀ a f, i ≠ .attrDecode a f) :
    exec i s = .refused .beforePowerOn := by
  cases i
  case powerOn v => exact absurd rfl (hpower v)
  case lineOffset y => exact absurd rfl (hline y)
  case attrDecode a f => exact absurd rfl (hattr a f)
  all_goals exact whenBooted_refused hboot _

/-- Settles O50: the load of the image, the guard of every operation, and POWER_ON run on the machine as constructed. -/
theorem nothingRunsBeforePowerOn : Obligations.NothingRunsBeforePowerOn :=
  ⟨fun c => read_romLoad c c.romImage, fun _ _ hboot => exec_beforePowerOn hboot, rfl⟩

/-! ### RESET, POWER_ON and POWER_OFF (R190 to R193) -/

theorem bootRom_eq_ite (c : Config) (v : Variant) :
    bootRom c v = if v = .simple then c.numBanks - 2 else romAlt0 c := by
  cases v <;> rfl

theorem latchOfVariant_eq_decide (v : Variant) : latchOfVariant v = decide (v = .banked) := by
  cases v <;> rfl

/-- Settles O47: the boot ROM and the latch by the variant, and the pool as RESET leaves it. -/
theorem resetRestoresTheBootMapping : Obligations.ResetRestoresTheBootMapping := by
  intro s v hboot
  refine ⟨_, whenBooted_of hboot _, ?_, read_resetBlock s v⟩
  rw [← bootRom_eq_ite, ← latchOfVariant_eq_decide]
  rfl

/-- Settles O48: POWER_ON is defined in every state, and adds the cleared decoder to what RESET leaves. -/
theorem powerOnInitialisesTheBlock : Obligations.PowerOnInitialisesTheBlock := by
  intro s v
  refine ⟨(powerOn s v).returning .unit, rfl, ?_, read_resetBlock s v⟩
  rw [← bootRom_eq_ite, ← latchOfVariant_eq_decide]
  rfl

/-- Settles O49: after power-on the guard lets POWER_OFF's one assignment through. -/
theorem powerOffClearsOnlyPowered : Obligations.PowerOffClearsOnlyPowered :=
  fun _ hboot => whenBooted_of hboot _

/-- Settles O51: the fields of the one state, and its pool, which lists nothing. -/
theorem resetStateHoldsTheSpecValues : Obligations.ResetStateHoldsTheSpecValues :=
  ⟨rfl, rfl, rfl, rfl, rfl, rfl, rfl, rfl, fun _ _ => rfl⟩

/-! ### The step (R208) -/

theorem takeCall_of_cons {s : State} {r : Record} {rest : List Record} (h : s.pending = r :: rest) :
    takeCall s = some (r, { s with pending := rest }) := by rw [takeCall, h]

theorem takeCall_of_nil {s : State} (h : s.pending = []) : takeCall s = none := by rw [takeCall, h]

/-- Settles O52: what is taken from the queue, and what its record decodes to, decide the step. -/
theorem stepRunsTheDecodedCall : Obligations.StepRunsTheDecodedCall := by
  refine ⟨fun s r rest i hp hd => ?_, fun s r rest e hp hd => ?_, fun s hp => ?_⟩
  · simp only [step, takeCall_of_cons hp, hd]
  · simp only [step, takeCall_of_cons hp, hd]
  · simp only [step, takeCall_of_nil hp]

end Sys2Proof.Machine
end

section
/-! PROOFS of the family `other`: the reset state meets the invariant (O54). It is what POWER_ON leaves of a machine constructed
with admissible parameters (70_reset_and_hazards.md R197, R192): the constructed machine meets the invariant for all such
parameters (`construct_inv`), and POWER_ON keeps it (`powerOn_inv`). -/

namespace Sys2Proof.Machine

/-- The ROM load lists nothing outside the arena, whatever the image. -/
theorem construct_pool_lt (c : Config) : ∀ cell ∈ (construct c).pool, cell.1 < c.numBanks * 16384 := by
  show ∀ cell ∈ c.romImage.foldr (loadRomByte c) [], cell.1 < c.numBanks * 16384
  induction c.romImage with
  | nil => exact fun _ h => (List.not_mem_nil h).elim
  | cons loaded image ih =>
    intro cell hcell
    rw [List.foldr_cons, loadRomByte] at hcell
    split at hcell
    · next hrom =>
      obtain ⟨-, hlt⟩ := hrom
      rcases Memory.mem_write hcell with heq | hmem
      · rwa [heq]
      · exact ih cell hmem
    · exact ih cell hcell

/-- The slots and `currentRom` of a constructed machine name bank 0, which every admissible bank count has. -/
theorem construct_inv {c : Config} (h : c.Ok) : (construct c).Inv := by
  have hbank : 0 < c.numBanks := (Nat.zero_lt_succ 11).trans_le h.1
  exact ⟨h, ⟨hbank, hbank, hbank, hbank⟩, hbank, construct_wf c, construct_pool_lt c, Nat.zero_lt_succ 18⟩

theorem default_ok : Config.default.Ok := by decide

theorem reset_eq_powerOn : State.reset = (powerOn (construct Config.default) .banked).returning .unit := rfl

/-- Settles O54: POWER_ON keeps the invariant of the machine constructed with the default parameters. -/
theorem resetMeetsTheInvariant : Obligations.ResetMeetsTheInvariant := by
  unfold Obligations.ResetMeetsTheInvariant
  rw [reset_eq_powerOn]
  exact powerOn_inv (construct_inv default_ok) .banked

end Sys2Proof.Machine
end
